-- ==== Sys2Proof/Word.lean ====
section
/-! DEFINITION. The word types of the CHIP-8 core (00_scope.md R4, R7): bytes, 16-bit words, 12-bit immediates,
register numbers, and the shape of the display buffer. -/

namespace Sys2Proof

/-- A byte of memory, a general register, an immediate NN (R4: V_WIDTH, R40). -/
abbrev Byte := BitVec 8

/-- An instruction word, `I`, `PC`, a stack entry, a timer (R4). -/
abbrev Word := BitVec 16

/-- The immediate NNN (R61). -/
abbrev Addr12 := BitVec 12

/-- The number of a general register, V0 to VF; every value names a register that exists (R21). -/
abbrev RegIdx := Fin 16

/-- One row of the display buffer, indexed by the column x (R27: column 0 is the left edge). -/
abbrev PixelRow := Vector Bool 64

/-- The display buffer, indexed by the row y and then by the column x (R27: row 0 is the top). -/
abbrev Display := Vector PixelRow 32

/-- The display buffer with every pixel off (R33, R90). -/
def displayOff : Display := Vector.replicate 32 (Vector.replicate 64 false)

end Sys2Proof
end

