-- ==== Sys2Proof/Config.lean ====
section
/-! DEFINITION. What is fixed for the machine and not state (00_scope.md R4): the sizes the source fixes, the OPEN
parameters as constants without a body, and the free values the spec leaves without a meaning. -/

namespace Sys2Proof.Config

/-- MEM_SIZE: addresses 0x000 to 0xFFF (R4, R40). -/
abbrev memSize : Nat := 4096

/-- ROM_BASE, the load address and the reset value of PC (R4). -/
abbrev romBase : Nat := 0x200

/-- ROM_MAX, the longest ROM `loadRom` accepts (R4, R163). -/
abbrev romMax : Nat := 3584

/-- The longest font table a core can be constructed with (R4, R160; 92_eei_decisions.md D11). -/
abbrev fontMax : Nat := 512

/-- DISPLAY_WIDTH (R4; 92_eei_decisions.md D17). -/
abbrev displayWidth : Nat := 64

/-- DISPLAY_HEIGHT (R4; 92_eei_decisions.md D17). -/
abbrev displayHeight : Nat := 32

/-- FONT_LEN, an OPEN parameter of at most 512 (R161, D11; log entry 10): no value is chosen. -/
opaque fontLen : Fin 513

/-- The byte of FONT at an offset, an OPEN parameter (R161, D11; log entry 10): only offsets below
`fontLen` are ever used. -/
opaque fontByte : Nat → Byte

/-- FONT as the byte sequence that construction is given (R160). -/
def font : List Byte := (List.range fontLen.val).map fontByte

/-- STACK_DEPTH, an OPEN parameter that no rule depends on (R4, R25, D10; log entry 15). -/
opaque stackDepth : Nat

/-- RESET_CLEARS_V: whether `reset()` also clears V0 to VF. False is the resolution of conflict C2 (R165, D7;
log entry 9). -/
def resetClearsV : Bool := false

/-- What `PC` holds between construction and the first `reset()`: the spec gives it no value, so it is a free value
(R33, D2; DESIGN CHOICE, log entry 6). -/
opaque pcAtConstruction : Word

/-- `V[15]` after the k-th fault inside a DXYN: the spec gives it no meaning (R116, R138, D15; DESIGN CHOICE, log
entry 4). -/
opaque freeByte : Nat → Byte

/-- `DISP` after the k-th fault inside a DXYN: the spec gives it no meaning (R116, R138, D15; DESIGN CHOICE, log
entry 4). -/
opaque freeDisplay : Nat → Display

end Sys2Proof.Config
end

