-- ==== Sys2Proof/Machine/State.lean ====
section
/-! DEFINITION. The state of the machine: every item of 10_state.md R20, as plain data, the reasons a step can stop, and
the state right after reset (R33, R164). -/

namespace Sys2Proof.Machine

/-- The sub-cause of an UnsupportedInstruction: the 0NNN family, or any other family (R132). -/
inductive SubCause where
  | legacy
  | other
  deriving DecidableEq, Repr

/-- A fault record (R30, R130). The instruction or fetch that raises a fault LATCHES its record in `State.fault`, as R7 and
R137 say (DEDUCED, log entry 1); `step` answers `Host.Outcome.fault` with the record of the call that raised it and of every
later call (R84, R150; log entry 2). -/
inductive Fault where
  /-- The word matches no executable pattern (R131). Raised by SYS and the ten unsupported families. Safe: the spec
  names it. -/
  | unsupportedInstruction (w : Word) (sub : SubCause)
  /-- A ROM of `len` bytes would overrun memory (R133, R163). Raised by `loadRom` alone. Safe: the spec names it. -/
  | loadOverflow (len : Nat)
  /-- A read at the address `a`, above 0xFFF (R134). Raised by the fetch and by the row reads of DXYN. Safe: the spec
  chose a fault because it can only make a true claim unprovable (D5; log entry 3). -/
  | memoryOutOfBounds (a : Nat)
  deriving DecidableEq, Repr

/-- Why a call has no meaning. -/
inductive Refusal where
  /-- An instruction without a meaning. Raised by no arm of `exec`: every instruction has its meaning. Safe. -/
  | notModelled (mnemonic : String)
  /-- `executeCycle` before the first `reset()` (R85, R135, D2; log entry 19). Raised by `step`. Safe. -/
  | notReady
  /-- Construction with a font table of `len` bytes, more than 512 (R160, D11; log entry 11). Raised by `construct`.
  Safe. -/
  | fontTooLong (len : Nat)
  deriving DecidableEq, Repr

/-- The lifecycle stage (R30, R166). "Ready" and "Running" are one stage. -/
inductive Stage where
  | constructed
  | loaded
  | ready
  deriving DecidableEq, Repr

/-- The bytes of memory that differ from what an unlisted address reads as, by rising address. -/
abbrev Memory := List Host.Cell

/-- The state (R20). -/
structure State where
  /-- MEM, 4096 bytes (R28, R40). -/
  mem : Memory
  /-- V0 to VF (R21). -/
  v : Vector Byte 16
  /-- The index register I (R23). -/
  i : Word
  /-- The program counter PC (R24). -/
  pc : Word
  /-- The call stack STACK, its newest entry first; no instruction pushes or pops it (R25). -/
  stack : List Word
  /-- The delay timer DT, inert (R26). -/
  dt : Word
  /-- The sound timer ST, inert (R26). -/
  st : Word
  /-- The display buffer DISP (R27). -/
  disp : Display
  /-- STAGE (R30). -/
  stage : Stage
  /-- The fault latch FAULT (R30). -/
  fault : Option Fault
  /-- RENDER_COUNT, the render notifications since construction (R31). -/
  renderCount : Nat
  /-- The model's own, not the spec's: how many free values a fault inside DXYN has taken (R116; log entry 27). -/
  freeCount : Nat
  deriving DecidableEq, Repr

/-- The machine after construction and `reset()`, with no ROM loaded (R33, R164). DT and ST have no reset value in the
spec: 0 is the model's (DESIGN CHOICE, log entry 7), and so is `freeCount` (DESIGN CHOICE, log entry 27). -/
def State.reset : State where
  mem := []
  v := Vector.replicate 16 0x00#8
  i := 0x0000#16
  pc := 0x0200#16
  stack := []
  dt := 0x0000#16
  st := 0x0000#16
  disp := displayOff
  stage := .ready
  fault := none
  renderCount := 0
  freeCount := 0

end Sys2Proof.Machine
end

