-- ==== Sys2Proof/Machine/Ops.lean ====
section
/-! DEFINITION. The named operations over memory, registers and the display buffer, and the two that every transaction
shares: raising a fault (60_exceptions.md R137) and the cycle around an instruction (40_cycle.md R80). -/

namespace Sys2Proof.Machine

/-! ### Memory (20_memory.md R40 to R44) -/

/-- FONT padded with zeros to the end of the system region (R34 d, R41). -/
def fontPadded (a : Nat) : Byte := if a < Config.fontLen.val then Config.fontByte a else 0x00#8

/-- What an address that is not listed reads as: the contents after construction (R33; DEDUCED, log entry 12). -/
def Memory.unlisted (a : Nat) : Byte := if Config.romBase ≤ a then 0x00#8 else fontPadded a

/-- MEM[a], without a check (R7). -/
def Memory.read : Memory → Nat → Byte
  | [], a => Memory.unlisted a
  | (b, u) :: rest, a => if a = b then u else Memory.read rest a

/-- The entry for a byte at an address: none where the byte is what the address reads as unlisted. -/
def Memory.entry (a : Nat) (v : Byte) : Memory := if v = Memory.unlisted a then [] else [(a, v)]

/-- Put a byte at an address, keeping the canonical form. -/
def Memory.put : Memory → Nat → Byte → Memory
  | [], a, v => Memory.entry a v
  | (b, u) :: rest, a, v =>
    if a < b then Memory.entry a v ++ (b, u) :: rest
    else if a = b then Memory.entry a v ++ rest
    else (b, u) :: Memory.put rest a v

/-- MemWrite(a, 1, v) (R7, R43). Its callers never pass an address above 0xFFF; there it writes nothing
(DESIGN CHOICE, log entry 13). -/
def Memory.write (m : Memory) (a : Nat) (v : Byte) : Memory :=
  if a < Config.memSize then Memory.put m a v else m

/-- Copy bytes to rising addresses (R160, R162). -/
def Memory.writeBytes : Memory → Nat → List Byte → Memory
  | m, _, [] => m
  | m, a, b :: rest => Memory.writeBytes (Memory.write m a b) (a + 1) rest

/-- The canonical form: addresses strictly rising from `low`, all in memory, and no entry equal to what its address
reads as unlisted. -/
def Memory.wfFrom : Nat → Memory → Bool
  | _, [] => true
  | low, (a, v) :: rest =>
    decide (low ≤ a) && decide (a < Config.memSize) && (v != Memory.unlisted a) && Memory.wfFrom (a + 1) rest

/-- The canonical form of memory. -/
def Memory.wf (m : Memory) : Bool := Memory.wfFrom 0 m

/-- MemRead(a, 1), the only read (R42): an address above 0xFFF raises MemoryOutOfBounds, it is not wrapped (D5). -/
def memRead (m : Memory) (a : Nat) : Except Fault Byte :=
  if a < Config.memSize then .ok (Memory.read m a) else .error (.memoryOutOfBounds a)

/-- Fetch16(a): the byte at `a`, then the byte at `a + 1` computed without wrap; the first is the more significant
(R7, R44, R82). -/
def fetch16 (m : Memory) (a : Nat) : Except Fault Word :=
  match memRead m a with
  | .error f => .error f
  | .ok hi =>
    match memRead m (a + 1) with
    | .error f => .error f
    | .ok lo => .ok (hi ++ lo)

/-! ### Registers (10_state.md R21 to R25) -/

/-- V[x] (R21). -/
def readV (s : State) (x : RegIdx) : Byte := s.v[x]

/-- V[x] <- b (R21): no register is hard-wired. -/
def writeV (s : State) (x : RegIdx) (b : Byte) : State := { s with v := s.v.set x b }

/-- I <- w (R23). -/
def writeI (s : State) (w : Word) : State := { s with i := w }

/-- PC <- w (R24). -/
def writePc (s : State) (w : Word) : State := { s with pc := w }

/-- PC <- (PC + 2) mod 2^16 (R81, D6; log entry 14). -/
def advancePc (s : State) : State := writePc s (s.pc + 2#16)

/-- STACK <- [], the one operation of the call-stack manager (R25). -/
def emptyStack (s : State) : State := { s with stack := [] }

/-! ### The display buffer (10_state.md R27) -/

/-- DISP[x, y] for x below 64 and y below 32; there is no other pixel. -/
def pixel (d : Display) (x y : Nat) : Bool :=
  if h : x < 64 ∧ y < 32 then d[y][x] else false

/-- DISP[x, y] <- on, for x below 64 and y below 32. -/
def setPixel (d : Display) (x y : Nat) (on : Bool) : Display :=
  if h : x < 64 ∧ y < 32 then d.set y (d[y].set x on) else d

/-- DISP <- d. -/
def writeDisp (s : State) (d : Display) : State := { s with disp := d }

/-- notify_render(): one render notification to the display sink (R31, R115). -/
def notifyRender (s : State) : State := { s with renderCount := s.renderCount + 1 }

/-- The read port of the display sink (R27, R145): it reads one pixel and changes nothing. -/
def sinkRead (s : State) (x : Fin 64) (y : Fin 32) : Bool := pixel s.disp x.val y.val

/-! ### Faults (60_exceptions.md) -/

/-- raise F(info): FAULT <- F(info), and nothing else: nothing is saved or pushed, PC is not redirected, no mode changes
(R7, R137). A program has no return from it (R140); the host's `reset()` clears the latch (R164). -/
def raise (f : Fault) (s : State) : State := { s with fault := some f }

/-- The sub-cause is a function of the word (R132). -/
def subCause (w : Word) : SubCause := if w.extractLsb' 12 4 = 0x0#4 then .legacy else .other

/-- raise UnsupportedInstruction(w, sub-cause) (R91, R120). -/
def raiseUnsupported (w : Word) (s : State) : State := raise (.unsupportedInstruction w (subCause w)) s

/-- The number the spec suggests for a port that reports FAULT; no program can read it (R136, D21; log entry 25). -/
def faultCode : Option Fault → Nat
  | none => 0
  | some (.unsupportedInstruction _ _) => 1
  | some (.loadOverflow _) => 2
  | some (.memoryOutOfBounds _) => 3

/-- `V[15]` and `DISP` as a fault inside DXYN leaves them: without a meaning, so free values (R116, R138, D15;
DESIGN CHOICE, log entry 4). -/
def leaveDrawOpen (s : State) : State :=
  { s with
    v := s.v.set 15 (Config.freeByte s.freeCount)
    disp := Config.freeDisplay s.freeCount
    freeCount := s.freeCount + 1 }

/-! ### The cycle (40_cycle.md R80) -/

/-- `executeCycle` around the effect `run w` of the fetched word `w`, in the order of R80 and R142: refusal, latched fault,
fetch, PC advance, dispatch. A call that raises a fault answers the state it leaves, the fault latched in it (R137). -/
def cycle (run : Word → State → Host.Outcome State Fault Refusal) (s : State) : Host.Outcome State Fault Refusal :=
  match s.stage with
  | .constructed => .refused .notReady
  | .loaded => .refused .notReady
  | .ready =>
    match s.fault with
    | some f => .fault f
    | none =>
      match fetch16 s.mem s.pc.toNat with
      | .error f => .next (raise f s)
      | .ok w => run w (advancePc s)

/-- The outcome of a call in the terms of R150: a call that left a fault latched is that fault, and the state it left is
no successor; any other next state is the next state (R84, R138, D15; log entry 2). -/
def outcomeOf : Host.Outcome State Fault Refusal → Host.Outcome State Fault Refusal
  | .next t =>
    match t.fault with
    | none => .next t
    | some f => .fault f
  | .fault f => .fault f
  | .refused r => .refused r

/-- Lay bytes where the next cycle fetches, in a core that is ready to execute them (R80). -/
def placeAtPc (s : State) (bytes : List Byte) : State :=
  { s with mem := Memory.writeBytes s.mem s.pc.toNat bytes, stage := .ready, fault := none }

end Sys2Proof.Machine
end

