-- ==== Sys2Proof/Machine/Flags.lean ====
section
/-! DEFINITION. The one flag of the hardware, VF as the collision flag of DXYN (10_state.md R22; 45_draw.md R112, R114).
No other instruction computes a flag: 7XNN touches none (R101). -/

namespace Sys2Proof.Machine

/-- VF, register 15 (R22). -/
def regVF : RegIdx := 15

/-- The value DXYN clears VF to before drawing (R112, D25). -/
def vfClear : Byte := 0x00#8

/-- The value DXYN sets VF to at a collision (R114, D25). -/
def vfCollision : Byte := 0x01#8

/-- VF after one sprite bit 1 meets a pixel: set if the pixel was on, otherwise as it was; never cleared (R114). -/
def collisionFlag (vf : Byte) (wasOn : Bool) : Byte := if wasOn then vfCollision else vf

end Sys2Proof.Machine
end

