-- ==== Sys2Proof/Machine/Operands.lean ====
section
/-! DEFINITION. The operand forms (30_encoding.md R63): registers V[X] and V[Y], and the immediates NN, NNN and N, all
unsigned, zero-extended, never scaled. There is no other form. -/

namespace Sys2Proof.Machine

/-- NNN as a 16-bit value, bits 15 to 12 zero (R63). -/
def zextNNN (nnn : Addr12) : Word := nnn.setWidth 16

/-- N as a row count, 0 to 15 (R63). -/
def rowCount (n : BitVec 4) : Nat := n.toNat

/-- xCoord: V[X] mod 64 (R111). -/
def anchorX (s : State) (x : RegIdx) : Nat := (readV s x).toNat % Config.displayWidth

/-- yCoord: V[Y] mod 32 (R111). -/
def anchorY (s : State) (y : RegIdx) : Nat := (readV s y).toNat % Config.displayHeight

end Sys2Proof.Machine
end

