-- ==== Sys2Proof/Machine/Draw.lean ====
section
/-! DEFINITION. DRW VX, VY, N (DXYN): the XOR draw with collision flag, by the loops of 45_draw.md R110. -/

namespace Sys2Proof.Machine

/-- What the loops of R110 write: the display buffer and VF. -/
structure Canvas where
  disp : Display
  vf : Byte
  deriving DecidableEq, Repr

/-- One sprite bit at an in-bounds pixel: a bit 1 toggles it and sets VF if it was on; a bit 0 does nothing (R114,
conflict C1). -/
def plotBit (bit : Bool) (x y : Nat) (p : Canvas) : Canvas :=
  if bit then ⟨setPixel p.disp x y (!pixel p.disp x y), collisionFlag p.vf (pixel p.disp x y)⟩ else p

/-- Step 4 of R110: the lowest `k` bits of a sprite byte, the most significant of them first, from column `x` on row
`y`; a column outside the width ends the row (R114). A whole row is `k = 8` from the anchor. -/
def drawBits (b : Byte) (y : Nat) : Nat → Nat → Canvas → Canvas
  | 0, _, p => p
  | k + 1, x, p =>
    if Config.displayWidth ≤ x then p else drawBits b y k (x + 1) (plotBit (b.getLsbD k) x y p)

/-- Step 3 of R110: `k` more rows, the next read at address `a` for display row `y`. The byte is read first and the row
test comes second, so the first clipped row is read (R113, D14; log entry 5). -/
def drawRows (m : Memory) (x0 : Nat) : Nat → Nat → Nat → Canvas → Except Fault Canvas
  | 0, _, _, p => .ok p
  | k + 1, a, y, p =>
    match memRead m a with
    | .error f => .error f
    | .ok b =>
      if Config.displayHeight ≤ y then .ok p else drawRows m x0 k (a + 1) (y + 1) (drawBits b y 8 x0 p)

/-- DRW VX, VY, N (R110): the anchor from the registers before VF is cleared (R111), VF cleared (R112), the rows (R113,
R114), one notification (R115). A row address above 0xFFF raises MemoryOutOfBounds, without a notification and with
`DISP` and VF left open (R116). I, V[X] and V[Y] keep their values. -/
def execDrw (x y : RegIdx) (n : BitVec 4) (s : State) : Host.Outcome State Fault Refusal :=
  match drawRows s.mem (anchorX s x) (rowCount n) s.i.toNat (anchorY s y) ⟨s.disp, vfClear⟩ with
  | .ok p => .next (notifyRender (writeV (writeDisp s p.disp) regVF p.vf))
  | .error f => .next (raise f (leaveDrawOpen s))

end Sys2Proof.Machine
end

