-- ==== Sys2Proof/Machine/Index.lean ====
section
/-! DEFINITION. The index register instruction: LD I, NNN (ANNN) (44_index.md). -/

namespace Sys2Proof.Machine

/-- LD I, NNN: I <- zext_16(NNN); memory is not accessed and nothing is checked (R105). -/
def execLdI (nnn : Addr12) (s : State) : Host.Outcome State Fault Refusal := .next (writeI s (zextNNN nnn))

end Sys2Proof.Machine
end

