-- ==== Sys2Proof/Machine/Jump.lean ====
section
/-! DEFINITION. Control transfer: JP (1NNN) (42_jump.md). -/

namespace Sys2Proof.Machine

/-- JP NNN: PC <- NNN, over the advanced PC; the target is not checked and nothing is pushed (R95). -/
def execJp (nnn : Addr12) (s : State) : Host.Outcome State Fault Refusal := .next (writePc s (zextNNN nnn))

end Sys2Proof.Machine
end

