-- ==== Sys2Proof/Machine/RegisterImmediate.lean ====
section
/-! DEFINITION. Register-immediate instructions: LD VX, NN (6XNN) and ADD VX, NN (7XNN) (43_register_immediate.md). -/

namespace Sys2Proof.Machine

/-- LD VX, NN: V[X] <- NN (R100). -/
def execLdImm (x : RegIdx) (nn : Byte) (s : State) : Host.Outcome State Fault Refusal := .next (writeV s x nn)

/-- ADD VX, NN: V[X] <- (V[X] + NN) mod 256; the carry is discarded and VF is written only as the destination (R101). -/
def execAddImm (x : RegIdx) (nn : Byte) (s : State) : Host.Outcome State Fault Refusal :=
  .next (writeV s x (readV s x + nn))

end Sys2Proof.Machine
end

