-- ==== Sys2Proof/Syntax.lean ====
section
/-! DEFINITION. The instructions: one constructor per row of spec/opcode_table.json, carrying the operand fields the
row's format names (30_encoding.md R62, R65, R70). -/

namespace Sys2Proof

/-- A decoded instruction word. The ten `unsupported` families are rows of the table, not instructions of CHIP-8:
they carry their low 12 bits so that the fault can report the raw word (R70, R131). -/
inductive Instr where
  /-- 00E0, clear the display buffer (R90). -/
  | cls
  /-- 0NNN other than 00E0, the rejected machine-code call (R91). -/
  | sys (nnn : Addr12)
  /-- 1NNN, jump (R95). -/
  | jp (nnn : Addr12)
  /-- 6XNN, load immediate (R100). -/
  | ldImm (x : RegIdx) (nn : Byte)
  /-- 7XNN, add immediate (R101). -/
  | addImm (x : RegIdx) (nn : Byte)
  /-- ANNN, load index (R105). -/
  | ldI (nnn : Addr12)
  /-- DXYN, draw sprite (R110). -/
  | drw (x y : RegIdx) (n : BitVec 4)
  /-- 2NNN (R120). -/
  | unsupported2 (nnn : Addr12)
  /-- 3NNN (R120). -/
  | unsupported3 (nnn : Addr12)
  /-- 4NNN (R120). -/
  | unsupported4 (nnn : Addr12)
  /-- 5NNN (R120). -/
  | unsupported5 (nnn : Addr12)
  /-- 8NNN (R120). -/
  | unsupported8 (nnn : Addr12)
  /-- 9NNN (R120). -/
  | unsupported9 (nnn : Addr12)
  /-- BNNN (R120). -/
  | unsupportedB (nnn : Addr12)
  /-- CNNN (R120). -/
  | unsupportedC (nnn : Addr12)
  /-- ENNN (R120). -/
  | unsupportedE (nnn : Addr12)
  /-- FNNN (R120). -/
  | unsupportedF (nnn : Addr12)
  deriving DecidableEq, Repr

end Sys2Proof
end

