-- ==== Sys2Proof/WellFormed.lean ====
section
/-! DEFINITION. Which instructions have an encoding of their own (30_encoding.md R65, R67). -/

namespace Sys2Proof

/-- The one ill-formed term is SYS with the operand of CLS: its word 0x00E0 is CLS (R65 rows 1 and 2, R91). Every
other field value of every row is legal (R67). -/
def Instr.wf : Instr → Bool
  | .cls => true
  | .sys nnn => nnn != 0x0E0#12
  | .jp _ => true
  | .ldImm _ _ => true
  | .addImm _ _ => true
  | .ldI _ => true
  | .drw _ _ _ => true
  | .unsupported2 _ => true
  | .unsupported3 _ => true
  | .unsupported4 _ => true
  | .unsupported5 _ => true
  | .unsupported8 _ => true
  | .unsupported9 _ => true
  | .unsupportedB _ => true
  | .unsupportedC _ => true
  | .unsupportedE _ => true
  | .unsupportedF _ => true

end Sys2Proof
end

