-- ==== Sys2Proof/Decode.lean ====
section
/-! DEFINITION. The decoder and, after it, the encoder (30_encoding.md R60 to R70; 20_memory.md R44). -/

namespace Sys2Proof

/-- The Instruction Descriptor: the raw word and the six fields cut from every word alike (R29, R61). -/
structure Descriptor where
  raw : Word
  op : BitVec 4
  x : RegIdx
  y : RegIdx
  n : BitVec 4
  nn : Byte
  nnn : Addr12
  deriving DecidableEq, Repr

/-- The bits `lo + len - 1` down to `lo` of a word, bit 0 the least significant (R6). -/
def field (w : Word) (lo len : Nat) : BitVec len := w.extractLsb' lo len

/-- Field extraction, the same for every word (R61, R64). -/
def describeWord (w : Word) : Descriptor where
  raw := w
  op := field w 12 4
  x := (field w 8 4).toFin
  y := (field w 4 4).toFin
  n := field w 0 4
  nn := field w 0 8
  nnn := field w 0 12

/-- D00's `decode(hi, lo)`: the first byte is the more significant (R44, R61). -/
def describe (hi lo : Byte) : Descriptor := describeWord (hi ++ lo)

/-- The dispatch on the high nibble, with the test of the full word for the zero-nibble family (R65). -/
def Descriptor.instr (d : Descriptor) : Instr :=
  if d.op = 0x0#4 then (if d.raw = 0x00E0#16 then .cls else .sys d.nnn)
  else if d.op = 0x1#4 then .jp d.nnn
  else if d.op = 0x2#4 then .unsupported2 d.nnn
  else if d.op = 0x3#4 then .unsupported3 d.nnn
  else if d.op = 0x4#4 then .unsupported4 d.nnn
  else if d.op = 0x5#4 then .unsupported5 d.nnn
  else if d.op = 0x6#4 then .ldImm d.x d.nn
  else if d.op = 0x7#4 then .addImm d.x d.nn
  else if d.op = 0x8#4 then .unsupported8 d.nnn
  else if d.op = 0x9#4 then .unsupported9 d.nnn
  else if d.op = 0xA#4 then .ldI d.nnn
  else if d.op = 0xB#4 then .unsupportedB d.nnn
  else if d.op = 0xC#4 then .unsupportedC d.nnn
  else if d.op = 0xD#4 then .drw d.x d.y d.n
  else if d.op = 0xE#4 then .unsupportedE d.nnn
  else .unsupportedF d.nnn

/-- The instruction a word stands for; total (R64, R65). -/
def decodeWord (w : Word) : Instr := (describeWord w).instr

/-- Why a byte sequence holds no instruction. -/
inductive DecodeReject where
  /-- Fewer than the two bytes of one word are left (R60). Raised by `decode` alone: the machine fetches two bytes
  or faults (R82), so a run never meets it. Safe. -/
  | truncated
  deriving DecidableEq, Repr

/-- Decode the first instruction of a byte sequence, total on any bytes: the instruction and the bytes after it. -/
def decode : List Byte → Except DecodeReject (Instr × List Byte)
  | hi :: lo :: rest => .ok (decodeWord (hi ++ lo), rest)
  | [_] => .error .truncated
  | [] => .error .truncated

/-- The two bytes of a word as they lie in memory, the more significant first (R44, R60). -/
def wordBytes (w : Word) : List Byte := [field w 8 8, field w 0 8]

/-- The bytes of an instruction whose low `nbits` bits are those of `w` and whose other bits are 0. -/
def tableBytes (nbits w : Nat) : List Byte := wordBytes (BitVec.ofNat 16 (w % 2 ^ nbits))

/-- The instruction the decoder reads from an instruction whose bits are `w`, as the opcode table numbers them. -/
def decodeTableWord (nbits w : Nat) : Option Instr :=
  match decode (tableBytes nbits w) with
  | .ok (i, _) => some i
  | .error _ => none

/-- Format NNN (R62): OP in bits 15 to 12, NNN in bits 11 to 0. -/
def formatNNN (op : BitVec 4) (nnn : Addr12) : Word := op ++ nnn

/-- Format XNN (R62): OP, X in bits 11 to 8, NN in bits 7 to 0. -/
def formatXNN (op : BitVec 4) (x : RegIdx) (nn : Byte) : Word := op ++ (BitVec.ofFin (w := 4) x ++ nn)

/-- Format XYN (R62): OP, X in bits 11 to 8, Y in bits 7 to 4, N in bits 3 to 0. -/
def formatXYN (op : BitVec 4) (x y : RegIdx) (n : BitVec 4) : Word :=
  op ++ (BitVec.ofFin (w := 4) x ++ (BitVec.ofFin (w := 4) y ++ n))

/-- The word of an instruction, from the formats and the OP of each row (R62, R65). -/
def encode : Instr → Word
  | .cls => 0x00E0#16
  | .sys nnn => formatNNN 0x0#4 nnn
  | .jp nnn => formatNNN 0x1#4 nnn
  | .ldImm x nn => formatXNN 0x6#4 x nn
  | .addImm x nn => formatXNN 0x7#4 x nn
  | .ldI nnn => formatNNN 0xA#4 nnn
  | .drw x y n => formatXYN 0xD#4 x y n
  | .unsupported2 nnn => formatNNN 0x2#4 nnn
  | .unsupported3 nnn => formatNNN 0x3#4 nnn
  | .unsupported4 nnn => formatNNN 0x4#4 nnn
  | .unsupported5 nnn => formatNNN 0x5#4 nnn
  | .unsupported8 nnn => formatNNN 0x8#4 nnn
  | .unsupported9 nnn => formatNNN 0x9#4 nnn
  | .unsupportedB nnn => formatNNN 0xB#4 nnn
  | .unsupportedC nnn => formatNNN 0xC#4 nnn
  | .unsupportedE nnn => formatNNN 0xE#4 nnn
  | .unsupportedF nnn => formatNNN 0xF#4 nnn

/-- The bytes of an instruction in memory (R44, R60). -/
def encodeBytes (i : Instr) : List Byte := wordBytes (encode i)

/-- One row of the opcode map: the words `w` with `w AND mask = match` that no earlier row has (R65). -/
structure OpcodeRow where
  mask : Word
  pattern : Word
  deriving DecidableEq, Repr

/-- The row of the opcode map an instruction belongs to (R65; spec/opcode_table.json). -/
def Instr.row : Instr → OpcodeRow
  | .cls => ⟨0xFFFF#16, 0x00E0#16⟩
  | .sys _ => ⟨0xF000#16, 0x0000#16⟩
  | .jp _ => ⟨0xF000#16, 0x1000#16⟩
  | .ldImm _ _ => ⟨0xF000#16, 0x6000#16⟩
  | .addImm _ _ => ⟨0xF000#16, 0x7000#16⟩
  | .ldI _ => ⟨0xF000#16, 0xA000#16⟩
  | .drw _ _ _ => ⟨0xF000#16, 0xD000#16⟩
  | .unsupported2 _ => ⟨0xF000#16, 0x2000#16⟩
  | .unsupported3 _ => ⟨0xF000#16, 0x3000#16⟩
  | .unsupported4 _ => ⟨0xF000#16, 0x4000#16⟩
  | .unsupported5 _ => ⟨0xF000#16, 0x5000#16⟩
  | .unsupported8 _ => ⟨0xF000#16, 0x8000#16⟩
  | .unsupported9 _ => ⟨0xF000#16, 0x9000#16⟩
  | .unsupportedB _ => ⟨0xF000#16, 0xB000#16⟩
  | .unsupportedC _ => ⟨0xF000#16, 0xC000#16⟩
  | .unsupportedE _ => ⟨0xF000#16, 0xE000#16⟩
  | .unsupportedF _ => ⟨0xF000#16, 0xF000#16⟩

/-- The whole opcode map in the order its rows are tested (R65; spec/opcode_table.json, `order` 1 to 17). -/
def opcodeMap : List OpcodeRow :=
  [⟨0xFFFF#16, 0x00E0#16⟩, ⟨0xF000#16, 0x0000#16⟩, ⟨0xF000#16, 0x1000#16⟩, ⟨0xF000#16, 0x6000#16⟩,
   ⟨0xF000#16, 0x7000#16⟩, ⟨0xF000#16, 0xA000#16⟩, ⟨0xF000#16, 0xD000#16⟩, ⟨0xF000#16, 0x2000#16⟩,
   ⟨0xF000#16, 0x3000#16⟩, ⟨0xF000#16, 0x4000#16⟩, ⟨0xF000#16, 0x5000#16⟩, ⟨0xF000#16, 0x8000#16⟩,
   ⟨0xF000#16, 0x9000#16⟩, ⟨0xF000#16, 0xB000#16⟩, ⟨0xF000#16, 0xC000#16⟩, ⟨0xF000#16, 0xE000#16⟩,
   ⟨0xF000#16, 0xF000#16⟩]

/-- The first row of the opcode map that a word matches (R65: first match wins). -/
def firstRow (w : Word) : Option OpcodeRow := opcodeMap.find? (fun r => w &&& r.mask == r.pattern)

end Sys2Proof
end

