-- ==== Sys2Proof/Machine/System.lean ====
section
/-! DEFINITION. The zero-nibble family: CLS (00E0) and SYS (0NNN) (41_system_0xxx.md). -/

namespace Sys2Proof.Machine

/-- CLS: every pixel off; no notification, VF untouched (R90, conflict C4). -/
def execCls (s : State) : Host.Outcome State Fault Refusal := .next (writeDisp s displayOff)

/-- SYS NNN: raise UnsupportedInstruction(w, legacy); no call is made and nothing is pushed (R91). -/
def execSys (nnn : Addr12) (s : State) : Host.Outcome State Fault Refusal :=
  .next (raiseUnsupported (formatNNN 0x0#4 nnn) s)

end Sys2Proof.Machine
end

