-- ==== Sys2Proof/Machine/Unsupported.lean ====
section
/-! DEFINITION. The ten unsupported families (46_unsupported.md R120): each raises UnsupportedInstruction(w, other),
whatever the low 12 bits of the word; none of the canonical CHIP-8 meanings is performed (R121). -/

namespace Sys2Proof.Machine

/-- 2NNN: raise UnsupportedInstruction(w, other) (R120). -/
def execUnsupported2 (nnn : Addr12) (s : State) : Host.Outcome State Fault Refusal :=
  .next (raiseUnsupported (formatNNN 0x2#4 nnn) s)

/-- 3NNN: raise UnsupportedInstruction(w, other) (R120). -/
def execUnsupported3 (nnn : Addr12) (s : State) : Host.Outcome State Fault Refusal :=
  .next (raiseUnsupported (formatNNN 0x3#4 nnn) s)

/-- 4NNN: raise UnsupportedInstruction(w, other) (R120). -/
def execUnsupported4 (nnn : Addr12) (s : State) : Host.Outcome State Fault Refusal :=
  .next (raiseUnsupported (formatNNN 0x4#4 nnn) s)

/-- 5NNN: raise UnsupportedInstruction(w, other) (R120). -/
def execUnsupported5 (nnn : Addr12) (s : State) : Host.Outcome State Fault Refusal :=
  .next (raiseUnsupported (formatNNN 0x5#4 nnn) s)

/-- 8NNN: raise UnsupportedInstruction(w, other) (R120). -/
def execUnsupported8 (nnn : Addr12) (s : State) : Host.Outcome State Fault Refusal :=
  .next (raiseUnsupported (formatNNN 0x8#4 nnn) s)

/-- 9NNN: raise UnsupportedInstruction(w, other) (R120). -/
def execUnsupported9 (nnn : Addr12) (s : State) : Host.Outcome State Fault Refusal :=
  .next (raiseUnsupported (formatNNN 0x9#4 nnn) s)

/-- BNNN: raise UnsupportedInstruction(w, other) (R120). -/
def execUnsupportedB (nnn : Addr12) (s : State) : Host.Outcome State Fault Refusal :=
  .next (raiseUnsupported (formatNNN 0xB#4 nnn) s)

/-- CNNN: raise UnsupportedInstruction(w, other) (R120). -/
def execUnsupportedC (nnn : Addr12) (s : State) : Host.Outcome State Fault Refusal :=
  .next (raiseUnsupported (formatNNN 0xC#4 nnn) s)

/-- ENNN: raise UnsupportedInstruction(w, other) (R120). -/
def execUnsupportedE (nnn : Addr12) (s : State) : Host.Outcome State Fault Refusal :=
  .next (raiseUnsupported (formatNNN 0xE#4 nnn) s)

/-- FNNN: raise UnsupportedInstruction(w, other) (R120). -/
def execUnsupportedF (nnn : Addr12) (s : State) : Host.Outcome State Fault Refusal :=
  .next (raiseUnsupported (formatNNN 0xF#4 nnn) s)

end Sys2Proof.Machine
end

