-- ==== Sys2Proof/Machine/Dispatch.lean ====
section
/-! DEFINITION. The dispatch: one arm per instruction, the effect applied to a state whose PC is already advanced
(30_encoding.md R65; 40_cycle.md R80, R81). -/

namespace Sys2Proof.Machine

def exec (i : Instr) (s : State) : Host.Outcome State Fault Refusal :=
  match i with
  | .cls => Sys2Proof.Machine.execCls s
  | .sys nnn => Sys2Proof.Machine.execSys nnn s
  | .jp nnn => Sys2Proof.Machine.execJp nnn s
  | .ldImm x nn => Sys2Proof.Machine.execLdImm x nn s
  | .addImm x nn => Sys2Proof.Machine.execAddImm x nn s
  | .ldI nnn => Sys2Proof.Machine.execLdI nnn s
  | .drw x y n => Sys2Proof.Machine.execDrw x y n s
  | .unsupported2 nnn => Sys2Proof.Machine.execUnsupported2 nnn s
  | .unsupported3 nnn => Sys2Proof.Machine.execUnsupported3 nnn s
  | .unsupported4 nnn => Sys2Proof.Machine.execUnsupported4 nnn s
  | .unsupported5 nnn => Sys2Proof.Machine.execUnsupported5 nnn s
  | .unsupported8 nnn => Sys2Proof.Machine.execUnsupported8 nnn s
  | .unsupported9 nnn => Sys2Proof.Machine.execUnsupported9 nnn s
  | .unsupportedB nnn => Sys2Proof.Machine.execUnsupportedB nnn s
  | .unsupportedC nnn => Sys2Proof.Machine.execUnsupportedC nnn s
  | .unsupportedE nnn => Sys2Proof.Machine.execUnsupportedE nnn s
  | .unsupportedF nnn => Sys2Proof.Machine.execUnsupportedF nnn s

end Sys2Proof.Machine
end

