-- ==== Sys2Proof/Machine/Cycle.lean ====
section
/-! DEFINITION. The cycle of this machine: the shared cycle of 40_cycle.md R80 around the decoded instruction. -/

namespace Sys2Proof.Machine

/-- `executeCycle()` with the state it leaves, also where it raises a fault (R80, R137): what the next host call finds
(R139, R140). -/
def runCycle (s : State) : Host.Outcome State Fault Refusal := cycle (fun w t => exec (decodeWord w) t) s

end Sys2Proof.Machine
end

