-- ==== Sys2Proof/Machine/Step.lean ====
section
/-! DEFINITION. One step is one `executeCycle` (40_cycle.md R80), its outcome in the terms of 60_exceptions.md R150. -/

namespace Sys2Proof.Machine

/-- `executeCycle()` as an outcome (R150): a next state, in which no fault is latched; the fault that the call raised or
found latched; or a refusal. -/
def step (s : State) : Host.Outcome State Fault Refusal := outcomeOf (runCycle s)

/-- The state with an instruction's bits stored where the next step fetches, so that it runs exactly that instruction
(DESIGN CHOICE, log entries 21 and 31). -/
def State.withFetchWord (s : State) (nbits w : Nat) : State := placeAtPc s (tableBytes nbits w)

end Sys2Proof.Machine
end

