-- ==== Sys2Proof/Machine/Transactions.lean ====
section
/-! DEFINITION. The four transactions through which the host acts on the core, and what each reports
(00_scope.md R5, R8; 70_reset_and_hazards.md; 60_exceptions.md R149). Each is atomic (R168; log entry 20). -/

namespace Sys2Proof.Machine

/-- What a transaction returns to the host: success, one fault record, or a refusal (R149, R135). -/
inductive Report where
  | success
  | faulted (f : Fault)
  | refused (r : Refusal)
  deriving DecidableEq, Repr

/-- The core in stage Constructed, its memory given (R33, R160). PC holds no value yet (log entry 6), STACK is taken as
empty (log entry 8), DT and ST have no stated value (DESIGN CHOICE, log entry 7). -/
def constructedWith (m : Memory) : State where
  mem := m
  v := Vector.replicate 16 0x00#8
  i := 0x0000#16
  pc := Config.pcAtConstruction
  stack := []
  dt := 0x0000#16
  st := 0x0000#16
  disp := displayOff
  stage := .constructed
  fault := none
  renderCount := 0
  freeCount := 0

/-- Memory zeroed but for a font table at 0x000: below 0x200 every byte is written, since there an unlisted address
reads as the machine's own FONT (R160). -/
@[irreducible] def fontMemory (bytes : List Byte) : Memory :=
  Memory.writeBytes [] 0 ((List.range Config.romBase).map (fun k => bytes.getD k 0x00#8))

/-- construct(FONT) (R160): a table longer than 512 bytes is a configuration the model refuses (D11; log entry 11). -/
def construct (bytes : List Byte) : Host.Outcome State Fault Refusal :=
  if Config.fontMax < bytes.length then .refused (.fontTooLong bytes.length)
  else .next (constructedWith (fontMemory bytes))

/-- FAULT <- f if FAULT is none; a fault that is already latched stays (R163, D13; log entry 16). -/
def latchFirst (f : Fault) (s : State) : State :=
  match s.fault with
  | none => raise f s
  | some _ => s

/-- The stage after a `loadRom` that does not overflow (R166). -/
def stageAfterLoad : Stage → Stage
  | .constructed => .loaded
  | .loaded => .loaded
  | .ready => .ready

/-- loadRom(bytes) (R162, R163): a ROM of more than 3584 bytes is not copied and reports LoadOverflow; any other is copied
to 0x200 and up, nothing is cleared and no register changes (D12; log entry 17). -/
def loadRom (bytes : List Byte) (s : State) : State × Report :=
  if Config.romMax < bytes.length then
    (latchFirst (.loadOverflow bytes.length) s, .faulted (.loadOverflow bytes.length))
  else
    ({ s with mem := Memory.writeBytes s.mem Config.romBase bytes, stage := stageAfterLoad s.stage }, .success)

/-- reset() with RESET_CLEARS_V given (R164, D7). No render notification (D16). -/
def resetWith (clearsV : Bool) (s : State) : State :=
  { emptyStack s with
    pc := 0x0200#16
    i := 0x0000#16
    disp := displayOff
    stage := .ready
    fault := none
    v := if clearsV then Vector.replicate 16 0x00#8 else s.v }

/-- reset() (R164, R165): V0 to VF, memory, the timers and RENDER_COUNT are left alone (log entry 9). -/
def warmReset (s : State) : State := resetWith Config.resetClearsV s

/-- executeCycle() as the host sees it: the state after the call, with a raised fault latched in it, and the report of the
call (R80, R84, R85, R137, R149). -/
def executeCycle (s : State) : State × Report :=
  match runCycle s with
  | .next t => (t, match t.fault with | none => .success | some f => .faulted f)
  | .fault f => (s, .faulted f)
  | .refused r => (s, .refused r)

/-- A host call on a constructed core (R5). There is no other move: no tick, no idle step, no power state (R148). -/
inductive Transaction where
  | loadRom (bytes : List Byte)
  | reset
  | executeCycle
  deriving DecidableEq, Repr

/-- The effect of a host call. -/
def transact (t : Transaction) (s : State) : State × Report :=
  match t with
  | .loadRom bytes => loadRom bytes s
  | .reset => (warmReset s, .success)
  | .executeCycle => executeCycle s

/-- The state after a sequence of host calls, the first at the head (R168: one at a time). Between calls nothing happens: a
core that is not called keeps all its state, and there is no sleep, wait or wake-up (R148). -/
def runTransactions : List Transaction → State → State
  | [], s => s
  | t :: rest, s => runTransactions rest (transact t s).1

end Sys2Proof.Machine
end

