-- ==== Sys2Proof/Safety.lean ====
section
/-! DEFINITION. The terms that claims use: a core ready to execute, the fetched word, reachable states, and the
invariant of 10_state.md R34. -/

namespace Sys2Proof.Machine

/-- The core executes an instruction when it is called: it has been reset and no fault is latched (R84, R85). -/
abbrev Executes (s : State) : Prop := s.stage = .ready ∧ s.fault = none

/-- The word at PC can be fetched and is `w` (R80, R82). -/
abbrev Fetches (s : State) (w : Word) : Prop := fetch16 s.mem s.pc.toNat = .ok w

/-- A state reached from construction with the machine's FONT by host calls (R34, R173). -/
def Reachable (s : State) : Prop :=
  ∃ s0 calls, construct Config.font = .next s0 ∧ s = runTransactions calls s0

/-- The invariant of R34 (a) to (d), with the canonical form of memory: I fits 12 bits; in stage Ready PC is at most
0x1000 and STACK is empty; below 0x200 memory is FONT padded with zeros. -/
structure Inv (s : State) : Prop where
  memWf : s.mem.wf = true
  index : s.i.toNat ≤ 0x0FFF
  pc : s.stage = .ready → s.pc.toNat ≤ 0x1000
  stack : s.stage = .ready → s.stack = []
  font : ∀ a, a < 0x200 → s.mem.read a = fontPadded a

/-- The row reads of a DXYN with N rows anchored on row y0 stay inside memory (R116, R170 c): with R = min(N, 32 - y0)
rows drawn, min(N, R + 1) bytes are read from I up. -/
abbrev RowsInMemory (i : Word) (y0 n : Nat) : Prop := i.toNat + min n (min n (32 - y0) + 1) ≤ 0x1000 ∨ n = 0

/-- Whether the sprite has a bit 1 at row r and column c, bit 7 first (R114, R117). -/
def spriteBit (m : Memory) (i : Word) (r c : Nat) : Bool := (m.read (i.toNat + r)).getLsbD (7 - c)

/-- Pixel (x, y) lies in the part of the sprite that is drawn: rows y0 to y0 + min(N, 32 - y0) - 1, columns x0 to
x0 + min(8, 64 - x0) - 1 (R113, R114, R117). -/
abbrev InWindow (x0 y0 n x y : Nat) : Prop :=
  x0 ≤ x ∧ x < x0 + min 8 (64 - x0) ∧ y0 ≤ y ∧ y < y0 + min n (32 - y0)

/-- The general register an instruction may write: the destination of 6XNN and 7XNN, VF for DXYN, none otherwise (R20,
R22). -/
def destV : Instr → Option RegIdx
  | .cls => none
  | .sys _ => none
  | .jp _ => none
  | .ldImm x _ => some x
  | .addImm x _ => some x
  | .ldI _ => none
  | .drw _ _ _ => some regVF
  | .unsupported2 _ => none
  | .unsupported3 _ => none
  | .unsupported4 _ => none
  | .unsupported5 _ => none
  | .unsupported8 _ => none
  | .unsupported9 _ => none
  | .unsupportedB _ => none
  | .unsupportedC _ => none
  | .unsupportedE _ => none
  | .unsupportedF _ => none

/-- The six executable instructions (R1, R65): every other row of the table raises a fault. -/
def executable : Instr → Bool
  | .cls => true
  | .sys _ => false
  | .jp _ => true
  | .ldImm _ _ => true
  | .addImm _ _ => true
  | .ldI _ => true
  | .drw _ _ _ => true
  | .unsupported2 _ => false
  | .unsupported3 _ => false
  | .unsupported4 _ => false
  | .unsupported5 _ => false
  | .unsupported8 _ => false
  | .unsupported9 _ => false
  | .unsupportedB _ => false
  | .unsupportedC _ => false
  | .unsupportedE _ => false
  | .unsupportedF _ => false

/-- An outcome with a function applied to its next state, if it has one. -/
def mapNext (g : State → State) : Host.Outcome State Fault Refusal → Host.Outcome State Fault Refusal
  | .next t => .next (g t)
  | .fault f => .fault f
  | .refused r => .refused r

end Sys2Proof.Machine
end

