-- ==== Sys2Proof/Certificates/Slice0/Obligations.lean ====
section
/-! DEFINITION. The statements for the provers, from the numbered rules of spec/. `exec i s` is the effect of an
instruction on a state whose PC is already advanced, a raised fault latched in the state it answers (log entry 1); `step s` is
a whole `executeCycle` with its outcome in the terms of R150; `executeCycle s` is the same call with the state it leaves. -/

open Sys2Proof Sys2Proof.Machine

/-! ### Encoding (30_encoding.md) -/

/-- R61: the six fields of every word by mask and shift, how they overlap, how they lie in the two fetched bytes, and
D00's own example. -/
def Obligations.FieldsAreTheFixedMasks : Prop :=
  (∀ hi lo : Byte,
    let w : Word := hi ++ lo
    let d := describe hi lo
    d.raw = w ∧
    (d.op.toNat = (w.toNat &&& 0xF000) >>> 12 ∧ d.x.val = (w.toNat &&& 0x0F00) >>> 8 ∧
      d.y.val = (w.toNat &&& 0x00F0) >>> 4 ∧ d.n.toNat = w.toNat &&& 0x000F ∧
      d.nn.toNat = w.toNat &&& 0x00FF ∧ d.nnn.toNat = w.toNat &&& 0x0FFF) ∧
    (d.nnn = BitVec.ofFin (w := 4) d.x ++ (BitVec.ofFin (w := 4) d.y ++ d.n) ∧
      d.nnn = BitVec.ofFin (w := 4) d.x ++ d.nn ∧ d.nn = BitVec.ofFin (w := 4) d.y ++ d.n) ∧
    (d.op = hi.extractLsb' 4 4 ∧ BitVec.ofFin (w := 4) d.x = hi.extractLsb' 0 4 ∧
      BitVec.ofFin (w := 4) d.y = lo.extractLsb' 4 4 ∧ d.n = lo.extractLsb' 0 4 ∧ d.nn = lo ∧
      d.nnn = hi.extractLsb' 0 4 ++ lo)) ∧
  describe 0xAB#8 0xCD#8 = ⟨0xABCD#16, 0xA#4, 0xB, 0xC, 0xD#4, 0xCD#8, 0xBCD#12⟩

/-- The words of the decode table of 95_test_vectors.md decode to the instructions it names. -/
def Obligations.SpecWordsDecodeAsTabulated : Prop :=
  decodeTableWord 16 0x00E0 = some .cls ∧ decodeTableWord 16 0x00E1 = some (.sys 0x0E1#12) ∧
  decodeTableWord 16 0x00EE = some (.sys 0x0EE#12) ∧ decodeTableWord 16 0x0000 = some (.sys 0x000#12) ∧
  decodeTableWord 16 0x1000 = some (.jp 0x000#12) ∧ decodeTableWord 16 0x1FFF = some (.jp 0xFFF#12) ∧
  decodeTableWord 16 0x6A3C = some (.ldImm 10 0x3C#8) ∧ decodeTableWord 16 0x7F01 = some (.addImm 15 0x01#8) ∧
  decodeTableWord 16 0xA20C = some (.ldI 0x20C#12) ∧ decodeTableWord 16 0xD012 = some (.drw 0 1 2#4) ∧
  decodeTableWord 16 0xDFF0 = some (.drw 15 15 0#4) ∧ decodeTableWord 16 0x8AB4 = some (.unsupported8 0xAB4#12) ∧
  decodeTableWord 16 0xFFFF = some (.unsupportedF 0xFFF#12)

/-- Decoding the encoding of a well-formed instruction gives it back, at every value of every operand, as a word and as
the first bytes of a sequence. -/
def Obligations.DecodeOfEncodeIsTheInstruction : Prop :=
  ∀ (i : Instr) (rest : List Byte), i.wf = true →
    decodeWord (encode i) = i ∧ decode (encodeBytes i ++ rest) = .ok (i, rest)

/-- Every word decodes to a well-formed instruction whose encoding is that word: decoding is total and loses no bit. -/
def Obligations.EveryWordIsOneInstruction : Prop :=
  ∀ w : Word, (decodeWord w).wf = true ∧ encode (decodeWord w) = w

/-- The decoder agrees with the opcode map: the first row that a word matches is the row of the instruction it decodes
to. -/
def Obligations.DecoderFollowsTheOpcodeMap : Prop := ∀ w : Word, firstRow w = some (decodeWord w).row

/-! ### Memory and the cycle (20_memory.md, 40_cycle.md, 60_exceptions.md) -/

/-- R44: the fetch is big-endian, and the high nibble that selects the family is the upper half of the byte at PC. -/
def Obligations.FetchIsBigEndian : Prop :=
  ∀ s : State, s.pc.toNat ≤ 0xFFE →
    ∃ w, Fetches s w ∧ w = s.mem.read s.pc.toNat ++ s.mem.read (s.pc.toNat + 1) ∧
      w.toNat = (s.mem.read s.pc.toNat).toNat * 256 + (s.mem.read (s.pc.toNat + 1)).toNat ∧
      (describeWord w).op = (s.mem.read s.pc.toNat).extractLsb' 4 4

/-- The spec's decision D5 (R42): a read up to 0xFFF gives the byte, a read above it raises MemoryOutOfBounds and is not
wrapped. -/
def Obligations.ReadsOutsideMemoryRaise : Prop :=
  ∀ (m : Memory) (a : Nat),
    (a ≤ 0xFFF → memRead m a = .ok (m.read a)) ∧ (0xFFF < a → memRead m a = .error (.memoryOutOfBounds a))

/-- When the bytes at PC decode to an instruction, the call runs that instruction's effect on the state with PC advanced by
2 (R80, R81) and nothing else: the step is the state it leaves, or, if a fault is latched in that state, that fault (R150);
the host gets that state and the report (R149). -/
def Obligations.StepRunsTheDecodedInstruction : Prop :=
  ∀ (s : State) (i : Instr), Executes s → s.pc.toNat ≤ 0xFFE →
    decode [s.mem.read s.pc.toNat, s.mem.read (s.pc.toNat + 1)] = .ok (i, []) →
    runCycle s = exec i { s with pc := s.pc + 2#16 } ∧
    ∀ t, exec i { s with pc := s.pc + 2#16 } = .next t →
      (t.fault = none → step s = .next t ∧ executeCycle s = (t, .success)) ∧
      (∀ f, t.fault = some f → step s = .fault f ∧ executeCycle s = (t, .faulted f))

/-- The order of R142, from the pseudocode of R80 with the spec's decisions D2, D3, D5: refusal before the first reset,
then the latched fault, then the high byte of the fetch, then the low byte, then the dispatch. A fault of the fetch changes
FAULT alone (R82). -/
def Obligations.CycleMeetsEventsInFixedOrder : Prop :=
  ∀ s : State,
    (s.stage ≠ .ready → step s = .refused .notReady) ∧
    (∀ f, s.stage = .ready → s.fault = some f → step s = .fault f) ∧
    (Executes s → 0x1000 ≤ s.pc.toNat →
      step s = .fault (.memoryOutOfBounds s.pc.toNat) ∧
      (executeCycle s).1 = { s with fault := some (.memoryOutOfBounds s.pc.toNat) }) ∧
    (Executes s → s.pc.toNat = 0xFFF →
      step s = .fault (.memoryOutOfBounds 0x1000) ∧
      (executeCycle s).1 = { s with fault := some (.memoryOutOfBounds 0x1000) }) ∧
    (Executes s → s.pc.toNat ≤ 0xFFE →
      ∃ w, Fetches s w ∧ runCycle s = exec (decodeWord w) { s with pc := s.pc + 2#16 })

/-- R81 with decision D6: whatever the word, supported or not, after a call that fetched it PC is 2 higher, without a wrap,
unless the word is a jump. -/
def Obligations.PcAdvancesByTwoUnlessJump : Prop :=
  ∀ (s : State) (w : Word), Executes s → Fetches s w →
    (∀ nnn, decodeWord w = .jp nnn → (executeCycle s).1.pc.toNat = nnn.toNat) ∧
    ((∀ nnn, decodeWord w ≠ .jp nnn) → (executeCycle s).1.pc.toNat = s.pc.toNat + 2)

/-- Decision D3 (R84): however often it is called, a core with a latched fault changes nothing and reports that fault;
`loadRom` keeps the latch (R139) and only `reset()` clears it (D4). -/
def Obligations.LatchedFaultIsReportedAgain : Prop :=
  ∀ (s : State) (f : Fault), s.stage = .ready → s.fault = some f →
    (∀ k, runTransactions (List.replicate k .executeCycle) s = s) ∧
    step s = .fault f ∧ executeCycle s = (s, .faulted f) ∧
    (∀ bytes, (loadRom bytes s).1.fault = some f) ∧ (warmReset s).fault = none

/-- Decision D2 (R85, R135): before the first reset a call is refused, changes nothing and sets no fault. -/
def Obligations.CallBeforeResetIsRefused : Prop :=
  ∀ s : State, s.stage ≠ .ready → step s = .refused .notReady ∧ executeCycle s = (s, .refused .notReady)

/-- R150 and R83: every instruction's effect ends in a state (a raised fault is latched in it, log entry 1), and a core that
executes answers every call: with a next state in which no fault is latched and the report of success, or with a fault and
the state that holds it. Nothing waits, halts or is stuck. -/
def Obligations.EveryExecutingCoreSteps : Prop :=
  (∀ (i : Instr) (s : State), ∃ t, exec i s = .next t) ∧
  (∀ s : State, Executes s →
    (∃ t, step s = .next t ∧ t.fault = none ∧ executeCycle s = (t, .success)) ∨
    (∃ t f, step s = .fault f ∧ t.fault = some f ∧ executeCycle s = (t, .faulted f)))

/-- R150 and R138: a faulted state is never final. A step never answers a state with a fault latched, so no run of one or
more steps ends in one; a step that answers a fault ends every longer run with it, and leaves it latched. -/
def Obligations.FaultedStateNeverEndsARun : Prop :=
  ∀ s : State,
    (∀ k t, Host.Core.run core (k + 1) s = .next t → t.fault = none ∧ t.stage = .ready) ∧
    (∀ f, step s = .fault f →
      (∀ k, Host.Core.run core (k + 1) s = .fault f) ∧ (executeCycle s).1.fault = some f ∧
      executeCycle (executeCycle s).1 = ((executeCycle s).1, .faulted f))

/-- R137 with R138: a call that raises a fault latches it, reports it, saves nothing, pushes nothing and redirects nothing:
PC is where it was or 2 higher, every register but VF, I, memory, STACK, the timers, the stage and RENDER_COUNT are as they
were, and if the word is no DXYN then so are VF and DISP. -/
def Obligations.FaultEntrySavesNothing : Prop :=
  ∀ (s : State) (f : Fault), s.fault = none → step s = .fault f →
    ∃ t, executeCycle s = (t, .faulted f) ∧ t.fault = some f ∧
      (t.pc = s.pc ∨ t.pc = s.pc + 2#16) ∧ (∀ z, z ≠ regVF → readV t z = readV s z) ∧
      t.i = s.i ∧ (∀ a, t.mem.read a = s.mem.read a) ∧ t.stack = s.stack ∧ t.dt = s.dt ∧ t.st = s.st ∧
      t.stage = s.stage ∧ t.renderCount = s.renderCount ∧
      ((∀ w x y n, Fetches s w → decodeWord w ≠ .drw x y n) → readV t regVF = readV s regVF ∧ t.disp = s.disp)

/-- R66: every word that is not one of the six executable patterns raises UnsupportedInstruction with that word, is reported
by the call, is fatal, and is never skipped: the words 0x0000 and 0x00EE are among them. The state of the fault is R81's, R91's
and R120's; that a later call answers the latched fault is decision D3 (log entry 2). -/
def Obligations.UnsupportedWordIsNeverSkipped : Prop :=
  (∀ (s : State) (w : Word), Executes s → Fetches s w → w ≠ 0x00E0#16 →
    w.extractLsb' 12 4 ≠ 0x1#4 → w.extractLsb' 12 4 ≠ 0x6#4 → w.extractLsb' 12 4 ≠ 0x7#4 →
    w.extractLsb' 12 4 ≠ 0xA#4 → w.extractLsb' 12 4 ≠ 0xD#4 →
    ∃ t f, f = Fault.unsupportedInstruction w (if w.extractLsb' 12 4 = 0x0#4 then .legacy else .other) ∧
      t = { s with pc := s.pc + 2#16, fault := some f } ∧
      step s = .fault f ∧ executeCycle s = (t, .faulted f) ∧ step t = .fault f) ∧
  decodeWord 0x0000#16 = .sys 0x000#12 ∧ decodeWord 0x00EE#16 = .sys 0x0EE#12

/-! ### The instructions: result, completion, encoding, and the whole cycle -/

/-- R90: CLS is the one word 0x00E0; it turns every pixel off and changes nothing else, not VF and not RENDER_COUNT, and
doing it again changes nothing. -/
def Obligations.ClearScreenTurnsEveryPixelOff : Prop :=
  encodeBytes .cls = [0x00#8, 0xE0#8] ∧ (∀ w, decodeWord w = .cls ↔ w = 0x00E0#16) ∧
  (∀ s : State, exec .cls s = .next { s with disp := displayOff } ∧
    exec .cls { s with disp := displayOff } = .next { s with disp := displayOff }) ∧
  (∀ x y, pixel displayOff x y = false) ∧
  (∀ s : State, Executes s → Fetches s 0x00E0#16 → step s = .next { s with pc := s.pc + 2#16, disp := displayOff })

/-- R91: every word with OP = 0 but 0x00E0 is SYS; it raises UnsupportedInstruction(w, legacy) and the call reports it, with PC
at the word's address plus 2 and nothing else changed: no call is made and nothing is pushed. That the effect answers the
state of the fault is the model's form (log entry 1), and so is its meaning for the ill-formed operand 0x0E0 (log entry 26). -/
def Obligations.SysRaisesLegacyCall : Prop :=
  ∀ nnn : Addr12,
    (nnn ≠ 0x0E0#12 → decodeWord (0x0#4 ++ nnn) = .sys nnn) ∧
    (∀ s : State, exec (.sys nnn) s =
      .next { s with fault := some (.unsupportedInstruction (0x0#4 ++ nnn) .legacy) }) ∧
    (∀ s : State, nnn ≠ 0x0E0#12 → Executes s → Fetches s (0x0#4 ++ nnn) →
      step s = .fault (.unsupportedInstruction (0x0#4 ++ nnn) .legacy) ∧
      executeCycle s =
        ({ s with
          pc := s.pc + 2#16
          fault := some (.unsupportedInstruction (0x0#4 ++ nnn) .legacy) },
        .faulted (.unsupportedInstruction (0x0#4 ++ nnn) .legacy)))

/-- R95: JP sets PC to NNN exactly, over the advanced value, and changes nothing else, whatever the target. -/
def Obligations.JumpSetsPcAndNothingElse : Prop :=
  ∀ nnn : Addr12,
    decodeWord (0x1#4 ++ nnn) = .jp nnn ∧
    (∀ s : State, ∃ t, exec (.jp nnn) s = .next t ∧ t = { s with pc := t.pc } ∧ t.pc.toNat = nnn.toNat) ∧
    (∀ s : State, Executes s → Fetches s (0x1#4 ++ nnn) → step s = .next { s with pc := nnn.setWidth 16 })

/-- A consequence of R95 with decision D5 (R82): a jump to 0xFFF is accepted and shows at the next fetch, which faults at
0x1000 and changes nothing but FAULT. -/
def Obligations.JumpToTheLastByteFaultsAtTheNextFetch : Prop :=
  ∀ s : State, Executes s → Fetches s 0x1FFF#16 →
    ∃ t, t = { s with pc := 0x0FFF#16 } ∧ step s = .next t ∧ step t = .fault (.memoryOutOfBounds 0x1000) ∧
      executeCycle t = ({ t with fault := some (.memoryOutOfBounds 0x1000) }, .faulted (.memoryOutOfBounds 0x1000))

/-- R100: LD VX, NN writes NN to V[X] for every X, VF included, and changes nothing else; twice is the same as once. -/
def Obligations.LoadImmediateWritesTheRegister : Prop :=
  ∀ (x : RegIdx) (nn : Byte),
    decodeWord (0x6#4 ++ (BitVec.ofFin (w := 4) x ++ nn)) = .ldImm x nn ∧
    (∀ s : State, ∃ t, exec (.ldImm x nn) s = .next t ∧ t = { s with v := t.v } ∧ readV t x = nn ∧
      (∀ z, z ≠ x → readV t z = readV s z) ∧ exec (.ldImm x nn) t = .next t) ∧
    (∀ s : State, Executes s → Fetches s (0x6#4 ++ (BitVec.ofFin (w := 4) x ++ nn)) →
      ∃ t, step s = .next t ∧ t = { s with v := t.v, pc := s.pc + 2#16 } ∧ readV t x = nn ∧
        (∀ z, z ≠ x → readV t z = readV s z))

/-- R101: ADD VX, NN writes (V[X] + NN) mod 256 to V[X] for every X, VF included as an ordinary register, and changes
nothing else: no flag. -/
def Obligations.AddImmediateWrapsWithoutFlag : Prop :=
  ∀ (x : RegIdx) (nn : Byte),
    decodeWord (0x7#4 ++ (BitVec.ofFin (w := 4) x ++ nn)) = .addImm x nn ∧
    (∀ s : State, ∃ t, exec (.addImm x nn) s = .next t ∧ t = { s with v := t.v } ∧
      (readV t x).toNat = ((readV s x).toNat + nn.toNat) % 256 ∧ (∀ z, z ≠ x → readV t z = readV s z)) ∧
    (∀ s : State, Executes s → Fetches s (0x7#4 ++ (BitVec.ofFin (w := 4) x ++ nn)) →
      ∃ t, step s = .next t ∧ t = { s with v := t.v, pc := s.pc + 2#16 } ∧
        (readV t x).toNat = ((readV s x).toNat + nn.toNat) % 256 ∧ (∀ z, z ≠ x → readV t z = readV s z))

/-- R105: LD I, NNN sets I to NNN with bits 15 to 12 zero and changes nothing else, whatever NNN. -/
def Obligations.LoadIndexZeroExtends : Prop :=
  ∀ nnn : Addr12,
    decodeWord (0xA#4 ++ nnn) = .ldI nnn ∧
    (∀ s : State, ∃ t, exec (.ldI nnn) s = .next t ∧ t = { s with i := t.i } ∧ t.i.toNat = nnn.toNat ∧
      t.i.extractLsb' 12 4 = 0x0#4) ∧
    (∀ s : State, Executes s → Fetches s (0xA#4 ++ nnn) →
      step s = .next { s with i := nnn.setWidth 16, pc := s.pc + 2#16 })

/-- R120: each of the ten unsupported families, whatever the low 12 bits, raises UnsupportedInstruction(w, other), with PC at
the word's address plus 2 and nothing else changed; the call reports it, and no later call goes on. That the
effect answers the state of the fault is the model's form (log entry 1); that a later call answers it is D3 (log entry 2). -/
def Obligations.UnsupportedFamiliesRaise : Prop :=
  ∀ (nnn : Addr12) (row : BitVec 4 × Instr),
    row ∈ [(0x2#4, Instr.unsupported2 nnn), (0x3#4, .unsupported3 nnn), (0x4#4, .unsupported4 nnn),
      (0x5#4, .unsupported5 nnn), (0x8#4, .unsupported8 nnn), (0x9#4, .unsupported9 nnn), (0xB#4, .unsupportedB nnn),
      (0xC#4, .unsupportedC nnn), (0xE#4, .unsupportedE nnn), (0xF#4, .unsupportedF nnn)] →
    decodeWord (row.1 ++ nnn) = row.2 ∧
    (∀ s : State, exec row.2 s =
      .next { s with fault := some (.unsupportedInstruction (row.1 ++ nnn) .other) }) ∧
    (∀ s : State, Executes s → Fetches s (row.1 ++ nnn) →
      ∃ t, t = { s with
          pc := s.pc + 2#16
          fault := some (.unsupportedInstruction (row.1 ++ nnn) .other) } ∧
        step s = .fault (.unsupportedInstruction (row.1 ++ nnn) .other) ∧
        executeCycle s = (t, .faulted (.unsupportedInstruction (row.1 ++ nnn) .other)) ∧
        step t = .fault (.unsupportedInstruction (row.1 ++ nnn) .other))

/-! ### The draw (45_draw.md) -/

/-- R117, which the spec marks as derived from R110 to R115: a DXYN that reads no row outside memory XORs every pixel of the
clipped sprite with its sprite bit, at once; VF is 0x01 if one of them was on under a sprite bit 1 and 0x00 otherwise;
RENDER_COUNT goes up by 1; everything else is unchanged. The anchor is taken from the registers before the draw. -/
def Obligations.DrawIsTheClosedForm : Prop :=
  ∀ (x y : RegIdx) (n : BitVec 4) (s : State),
    let x0 := (readV s x).toNat % 64
    let y0 := (readV s y).toNat % 32
    RowsInMemory s.i y0 n.toNat →
    ∃ t, exec (.drw x y n) s = .next t ∧
      (∀ px py, px < 64 → py < 32 →
        (InWindow x0 y0 n.toNat px py →
          pixel t.disp px py = (pixel s.disp px py ^^ spriteBit s.mem s.i (py - y0) (px - x0))) ∧
        (¬ InWindow x0 y0 n.toNat px py → pixel t.disp px py = pixel s.disp px py)) ∧
      ((∃ px py, InWindow x0 y0 n.toNat px py ∧ spriteBit s.mem s.i (py - y0) (px - x0) = true ∧
          pixel s.disp px py = true) → readV t regVF = 0x01#8) ∧
      ((¬ ∃ px py, InWindow x0 y0 n.toNat px py ∧ spriteBit s.mem s.i (py - y0) (px - x0) = true ∧
          pixel s.disp px py = true) → readV t regVF = 0x00#8) ∧
      t = { s with disp := t.disp, v := s.v.set 15 (readV t regVF), renderCount := s.renderCount + 1 }

/-- R116 with decisions D5, D14, D15: a DXYN that reads a row outside memory raises MemoryOutOfBounds with the first such
address, so the step has no successor state; no notification, and nothing but FAULT, DISP and VF changes. That the effect
answers the state of the fault is the model's form (log entry 1). DISP and VF are left open, so nothing is said of them
(log entry 4); `freeCount` is the model's own. -/
def Obligations.DrawOutsideMemoryRaises : Prop :=
  ∀ (x y : RegIdx) (n : BitVec 4),
    (∀ s : State, ¬ RowsInMemory s.i ((readV s y).toNat % 32) n.toNat →
      ∃ t, exec (.drw x y n) s = .next t ∧
        t = { s with
          disp := t.disp
          v := s.v.set 15 (readV t regVF)
          fault := some (.memoryOutOfBounds (max s.i.toNat 0x1000))
          freeCount := s.freeCount + 1 }) ∧
    (∀ s : State, Executes s →
      Fetches s (0xD#4 ++ (BitVec.ofFin (w := 4) x ++ (BitVec.ofFin (w := 4) y ++ n))) →
      ¬ RowsInMemory s.i ((readV s y).toNat % 32) n.toNat →
      step s = .fault (.memoryOutOfBounds (max s.i.toNat 0x1000)))

/-- R118 k and R105 with decisions D5, D14: from I = 0xFFF a DXYN of two or more rows faults at 0x1000 wherever its anchor
is, on the last display row too, where row 1 would be clipped: the byte is read first. That the effect answers the state of
the fault is the model's form (log entry 1); the whole call answers the fault. -/
def Obligations.DrawFromTheLastByteFaultsAtTheNextRow : Prop :=
  ∀ (x y : RegIdx) (n : BitVec 4) (s : State), s.i = 0xFFF#16 → 2 ≤ n.toNat →
    (∃ t, exec (.drw x y n) s = .next t ∧ t.fault = some (.memoryOutOfBounds 0x1000) ∧
      t.renderCount = s.renderCount) ∧
    (Executes s → Fetches s (0xD#4 ++ (BitVec.ofFin (w := 4) x ++ (BitVec.ofFin (w := 4) y ++ n))) →
      step s = .fault (.memoryOutOfBounds 0x1000))

/-- R118 a: with N = 0 nothing is read or drawn, from any I; VF is cleared and one notification is emitted. -/
def Obligations.DrawOfNoRowsClearsVfAndNotifies : Prop :=
  ∀ (x y : RegIdx) (s : State),
    exec (.drw x y 0#4) s = .next { s with v := s.v.set 15 0x00#8, renderCount := s.renderCount + 1 }

/-- D00's double-draw property, in full (R117): the same draw twice at the same anchor gives back the display buffer, and VF
after the second says whether some drawn sprite bit met an off pixel the first time. The anchor is the same unless VF, which
the first draw wrote, names it: with X or Y = 15 it is a condition on the first draw's result. -/
def Obligations.DrawingTwiceRestoresTheDisplay : Prop :=
  ∀ (x y : RegIdx) (n : BitVec 4) (s : State),
    let x0 := (readV s x).toNat % 64
    let y0 := (readV s y).toNat % 32
    RowsInMemory s.i y0 n.toNat →
    ∃ t, exec (.drw x y n) s = .next t ∧
      (x ≠ regVF → (readV t x).toNat % 64 = x0) ∧ (y ≠ regVF → (readV t y).toNat % 32 = y0) ∧
      ((readV t x).toNat % 64 = x0 → (readV t y).toNat % 32 = y0 →
        ∃ u, exec (.drw x y n) t = .next u ∧ u.disp = s.disp ∧
          (readV u regVF = 0x01#8 ↔
            ∃ px py, InWindow x0 y0 n.toNat px py ∧ spriteBit s.mem s.i (py - y0) (px - x0) = true ∧
              pixel s.disp px py = false))

/-- R118 j and d: a draw changes no pixel outside the rectangle from the anchor to 7 columns right and 14 rows down, cut at
column 63 and row 31; nothing appears at the left or at the top. -/
def Obligations.DrawStaysInsideItsRectangle : Prop :=
  ∀ (x y : RegIdx) (n : BitVec 4) (s t : State) (px py : Nat),
    RowsInMemory s.i ((readV s y).toNat % 32) n.toNat → exec (.drw x y n) s = .next t →
    pixel t.disp px py ≠ pixel s.disp px py →
    (readV s x).toNat % 64 ≤ px ∧ px ≤ min ((readV s x).toNat % 64 + 7) 63 ∧
    (readV s y).toNat % 32 ≤ py ∧ py ≤ min ((readV s y).toNat % 32 + 14) 31 ∧
    py < (readV s y).toNat % 32 + n.toNat

/-! ### Frames: what an instruction leaves alone -/

/-- No instruction writes memory, STACK, the timers or the stage (R43, R25, R26, R30): every byte reads as before. -/
def Obligations.InstructionsLeaveMemoryAndInertState : Prop :=
  ∀ (i : Instr) (s t : State), exec i s = .next t →
    (∀ a, t.mem.read a = s.mem.read a) ∧ t.mem = s.mem ∧ t.stack = s.stack ∧ t.dt = s.dt ∧ t.st = s.st ∧
    t.stage = s.stage

/-- Every register is unchanged but the destination of 6XNN and 7XNN and VF of DXYN; I changes only by ANNN; the PC the
cycle advanced changes only by 1NNN (R20 to R24). -/
def Obligations.InstructionsWriteOnlyTheirRegister : Prop :=
  ∀ (i : Instr) (s t : State), exec i s = .next t →
    (∀ z, destV i ≠ some z → readV t z = readV s z) ∧
    ((∀ nnn, i ≠ .ldI nnn) → t.i = s.i) ∧ ((∀ nnn, i ≠ .jp nnn) → t.pc = s.pc)

/-- The display buffer is written by CLS and DXYN alone (R20, conflict C3), and only a DXYN that completes notifies, once
(R86, R115, conflict C4). -/
def Obligations.OnlyClsAndDrawTouchTheDisplay : Prop :=
  ∀ (i : Instr) (s t : State), exec i s = .next t →
    (i ≠ .cls → (∀ x y n, i ≠ .drw x y n) → t.disp = s.disp) ∧
    ((∀ x y n, i ≠ .drw x y n) → t.renderCount = s.renderCount) ∧
    (∀ x y n, i = .drw x y n → s.fault = none →
      t.renderCount = if t.fault = none then s.renderCount + 1 else s.renderCount)

/-- Of the six executable instructions only DXYN can raise a fault: the other five leave the latch as it is (R90, R95, R100,
R101, R105: "Exceptions: none"). -/
def Obligations.FiveInstructionsNeverFault : Prop :=
  ∀ (i : Instr) (s : State),
    (i = .cls ∨ (∃ nnn, i = .jp nnn) ∨ (∃ x nn, i = .ldImm x nn) ∨ (∃ x nn, i = .addImm x nn) ∨
      (∃ nnn, i = .ldI nnn)) →
    ∃ t, exec i s = .next t ∧ t.fault = s.fault ∧ t.freeCount = s.freeCount

/-! ### Construction, loadRom, reset (70_reset_and_hazards.md) -/

/-- R160 with decisions D2 and D11: construction with at most 512 font bytes gives memory that is the font and then zeros,
V and I zero, every pixel off, stage Constructed, no fault, no notification; more than 512 is refused. -/
def Obligations.ConstructionZeroesAllButTheFont : Prop :=
  ∀ bytes : List Byte,
    (bytes.length ≤ 512 → ∃ s, construct bytes = .next s ∧ s.mem.wf = true ∧
      (∀ a, a < bytes.length → s.mem.read a = bytes.getD a 0x00#8) ∧
      (∀ a, bytes.length ≤ a → s.mem.read a = 0x00#8) ∧
      (∀ z, readV s z = 0x00#8) ∧ s.i = 0x0000#16 ∧ (∀ x y, pixel s.disp x y = false) ∧
      s.stage = .constructed ∧ s.fault = none ∧ s.renderCount = 0) ∧
    (512 < bytes.length → construct bytes = .refused (.fontTooLong bytes.length))

/-- R162 with decision D12: a ROM of at most 3584 bytes is copied to 0x200 and up; every other byte and everything but the
stage is unchanged, and the stage moves only from Constructed to Loaded. -/
def Obligations.LoadRomCopiesItsBytes : Prop :=
  ∀ (s : State) (bytes : List Byte), s.mem.wf = true → bytes.length ≤ 3584 →
    ∃ t, loadRom bytes s = (t, .success) ∧
      (∀ k, k < bytes.length → t.mem.read (0x200 + k) = bytes.getD k 0x00#8) ∧
      (∀ a, a < 0x200 ∨ 0x200 + bytes.length ≤ a → t.mem.read a = s.mem.read a) ∧ t.mem.wf = true ∧
      t.stage = (if s.stage = .constructed then .loaded else s.stage) ∧
      t = { s with mem := t.mem, stage := t.stage }

/-- R163 with decision D13: a longer ROM is not copied and reports LoadOverflow; it is latched if no fault is, and nothing
else changes. -/
def Obligations.OversizedRomIsReported : Prop :=
  ∀ (s : State) (bytes : List Byte), 3584 < bytes.length →
    (s.fault = none → loadRom bytes s =
      ({ s with fault := some (.loadOverflow bytes.length) }, .faulted (.loadOverflow bytes.length))) ∧
    (s.fault ≠ none → loadRom bytes s = (s, .faulted (.loadOverflow bytes.length)))

/-- R53: the bytes of a ROM are what the very next fetch inside it reads; the load does not move PC. -/
def Obligations.LoadedCodeIsFetchedAtOnce : Prop :=
  ∀ (s : State) (bytes : List Byte) (k : Nat), s.mem.wf = true → bytes.length ≤ 3584 → k + 1 < bytes.length →
    s.pc.toNat = 0x200 + k →
    (loadRom bytes s).1.pc = s.pc ∧
    Fetches (loadRom bytes s).1 (bytes.getD k 0x00#8 ++ bytes.getD (k + 1) 0x00#8)

/-- R164 and R165 with decisions D4, D7, D16: reset() sets PC to 0x200, I to 0, empties STACK, clears DISP, enters Ready,
clears FAULT and leaves V0 to VF, memory, the timers and RENDER_COUNT alone; twice is the same as once. -/
def Obligations.ResetWritesSixItems : Prop :=
  ∀ s : State,
    warmReset s = { s with
      pc := 0x0200#16
      i := 0x0000#16
      stack := []
      disp := displayOff
      stage := .ready
      fault := none } ∧
    warmReset (warmReset s) = warmReset s ∧ transact .reset s = (warmReset s, .success)

/-- The values R33 gives after construction and reset: PC at 0x200, I and V zero, STACK empty, DISP off, Ready, no fault, no
notification, and memory that is FONT and then zeros. -/
def Obligations.ResetStateHoldsTheTabulatedValues : Prop :=
  State.reset.pc = 0x0200#16 ∧ State.reset.i = 0x0000#16 ∧ (∀ z, readV State.reset z = 0x00#8) ∧
  State.reset.stack = [] ∧ (∀ x y, pixel State.reset.disp x y = false) ∧ State.reset.stage = .ready ∧
  State.reset.fault = none ∧ State.reset.renderCount = 0 ∧
  (∀ a, a < 0x200 → State.reset.mem.read a = fontPadded a) ∧ (∀ a, 0x200 ≤ a → State.reset.mem.read a = 0x00#8)

/-- The reset state is what construction with the machine's FONT and then reset() give (R33, R167; PC before the reset has
no value, D2). -/
def Obligations.ResetStateIsConstructThenReset : Prop :=
  ∃ s, construct Config.font = .next s ∧ warmReset s = State.reset

/-- The stage after every host call (R166): loadRom moves Constructed to Loaded if it does not overflow, reset moves every
stage to Ready, executeCycle moves none. -/
def Obligations.LifecycleMovesAsTabulated : Prop :=
  ∀ s : State,
    (∀ bytes, (transact (.loadRom bytes) s).1.stage =
      if bytes.length ≤ 3584 ∧ s.stage = .constructed then .loaded else s.stage) ∧
    (transact .reset s).1.stage = .ready ∧ (transact .executeCycle s).1.stage = s.stage

/-- R167: loading a ROM that fits and resetting may come in either order. -/
def Obligations.LoadAndResetCommute : Prop :=
  ∀ (s : State) (bytes : List Byte), bytes.length ≤ 3584 →
    warmReset (loadRom bytes s).1 = (loadRom bytes (warmReset s)).1

/-! ### Invariants and whole-machine rules -/

/-- The invariant of R34 with the canonical form of memory holds right after reset. -/
def Obligations.ResetMeetsTheInvariant : Prop := Inv State.reset

/-- Every step keeps the invariant of R34 and the canonical form of memory, from every state that meets it, and so does every
call, also one that raises a fault. -/
def Obligations.EveryStepKeepsTheInvariant : Prop :=
  ∀ s : State, Inv s → (∀ t, step s = .next t → Inv t) ∧ Inv (executeCycle s).1

/-- Every host call, from every state that meets the invariant of R34, leaves a state that meets it: `loadRom` of any bytes, in
any stage, `reset()`, and `executeCycle`, also where one of them reports a fault or is refused; and the core as constructed
with the machine's FONT meets it. -/
def Obligations.EveryHostCallKeepsTheInvariant : Prop :=
  (∀ s : State, construct Config.font = .next s → Inv s) ∧
  (∀ (s : State) (c : Transaction), Inv s → Inv (transact c s).1)

/-- R34, which the spec derives and asks a model to prove: every state reached from construction by host calls, in any
order, has I at most 0xFFF, and in stage Ready PC at most 0x1000 and an empty STACK; below 0x200 its memory is FONT padded
with zeros. -/
def Obligations.EveryReachableStateMeetsTheInvariant : Prop := ∀ s : State, Reachable s → Inv s

/-- R170, which the spec derives: a cycle completes without a fault exactly when the core executes, PC is at most 0xFFE, the
word there is one of the six executable patterns, and, if it is a DXYN, its row addresses stay in memory. -/
def Obligations.CycleIsFaultFreeExactlyWhen : Prop :=
  ∀ s : State,
    (∃ t, step s = .next t) ↔
      Executes s ∧ ∃ w, Fetches s w ∧ executable (decodeWord w) = true ∧
        ∀ x y n, decodeWord w = .drw x y n → RowsInMemory s.i ((readV s y).toNat % 32) n.toNat

/-- Nothing reads DT, ST or STACK: with other values in them a step does the same and leaves them as they are, and so does a
call that raises a fault (R25, R26). -/
def Obligations.TimersAndStackAreUnobservable : Prop :=
  ∀ (s : State) (dt st : Word) (stack : List Word),
    let change : State → State := fun t => { t with dt := dt, st := st, stack := stack }
    step (change s) = mapNext change (step s) ∧
    executeCycle (change s) = (change (executeCycle s).1, (executeCycle s).2)

/-- R172 c with R83: at a jump to its own address every further cycle leaves the whole state unchanged. -/
def Obligations.SelfJumpIsAFixedPoint : Prop :=
  ∀ (s : State) (nnn : Addr12), Executes s → Fetches s (0x1#4 ++ nnn) → s.pc = nnn.setWidth 16 →
    ∀ k, Host.Core.run core k s = .next s
end

