-- ==== Sys2Proof/Laws/Memory.lean ====
section
/-! SUPPORT. Memory: every operation keeps the canonical form, a read after a write to the same address gives the byte
written, a write leaves every other address alone, and two canonical memories that read alike are equal. -/

namespace Sys2Proof.Machine

theorem Memory.wfFrom_mono {low low' : Nat} {m : Memory} (h : low' ≤ low) (hm : Memory.wfFrom low m = true) :
    Memory.wfFrom low' m = true := by
  cases m with
  | nil => rfl
  | cons c rest =>
    obtain ⟨a, v⟩ := c
    simp only [Memory.wfFrom, Bool.and_eq_true, decide_eq_true_eq] at hm ⊢
    exact ⟨⟨⟨by omega, hm.1.1.2⟩, hm.1.2⟩, hm.2⟩

/-- Below the lowest listed address every byte is unlisted. -/
theorem Memory.read_below {low a : Nat} {m : Memory} (hm : Memory.wfFrom low m = true) (h : a < low) :
    Memory.read m a = Memory.unlisted a := by
  induction m generalizing low with
  | nil => rfl
  | cons c rest ih =>
    obtain ⟨b, u⟩ := c
    simp only [Memory.wfFrom, Bool.and_eq_true, decide_eq_true_eq] at hm
    rw [Memory.read, if_neg (by omega)]
    exact ih hm.2 (by omega)

theorem Memory.wfFrom_entry_append {low a : Nat} {v : Byte} {m : Memory} (hl : low ≤ a) (ha : a < Config.memSize)
    (hm : Memory.wfFrom (a + 1) m = true) : Memory.wfFrom low (Memory.entry a v ++ m) = true := by
  unfold Memory.entry
  split
  · exact Memory.wfFrom_mono (by omega) hm
  · simp [Memory.wfFrom, *]

theorem Memory.read_entry_append {a b : Nat} {v : Byte} {m : Memory} (hm : Memory.wfFrom (a + 1) m = true) :
    Memory.read (Memory.entry a v ++ m) b = if b = a then v else Memory.read m b := by
  unfold Memory.entry
  split
  · next h =>
    split
    · next e => subst e; simpa [h] using Memory.read_below hm (Nat.lt_succ_self _)
    · rfl
  · rfl

theorem Memory.wfFrom_put {low a : Nat} {v : Byte} {m : Memory} (hl : low ≤ a) (ha : a < Config.memSize)
    (hm : Memory.wfFrom low m = true) : Memory.wfFrom low (Memory.put m a v) = true := by
  induction m generalizing low with
  | nil => simpa [Memory.put] using Memory.wfFrom_entry_append (v := v) (m := []) hl ha rfl
  | cons c rest ih =>
    obtain ⟨b, u⟩ := c
    have hm' := hm
    simp only [Memory.wfFrom, Bool.and_eq_true, decide_eq_true_eq] at hm'
    simp only [Memory.put]
    split
    · exact Memory.wfFrom_entry_append hl ha (by
        simp only [Memory.wfFrom, Bool.and_eq_true, decide_eq_true_eq]
        exact ⟨⟨⟨by omega, hm'.1.1.2⟩, hm'.1.2⟩, hm'.2⟩)
    · split
      · next e => subst e; exact Memory.wfFrom_entry_append hl ha hm'.2
      · simp only [Memory.wfFrom, Bool.and_eq_true, decide_eq_true_eq]
        exact ⟨hm'.1, ih (by omega) hm'.2⟩

theorem Memory.read_put {low a b : Nat} {v : Byte} {m : Memory} (hm : Memory.wfFrom low m = true) :
    Memory.read (Memory.put m a v) b = if b = a then v else Memory.read m b := by
  induction m generalizing low with
  | nil => simpa [Memory.put] using Memory.read_entry_append (a := a) (b := b) (v := v) (m := []) rfl
  | cons c rest ih =>
    obtain ⟨d, u⟩ := c
    have hm' := hm
    simp only [Memory.wfFrom, Bool.and_eq_true, decide_eq_true_eq] at hm'
    simp only [Memory.put]
    split
    · exact Memory.read_entry_append (by
        simp only [Memory.wfFrom, Bool.and_eq_true, decide_eq_true_eq]
        exact ⟨⟨⟨by omega, hm'.1.1.2⟩, hm'.1.2⟩, hm'.2⟩)
    · split
      · next e =>
        subst e
        rw [Memory.read_entry_append hm'.2]
        split
        · rfl
        · next hb => rw [Memory.read, if_neg hb]
      · simp only [Memory.read, ih hm'.2]
        by_cases hb : b = d
        · rw [if_pos hb, if_neg (by omega), if_pos hb]
        · simp [hb]

/-- Writing a byte that is already there changes nothing. -/
theorem Memory.put_same {low a : Nat} {m : Memory} (hl : low ≤ a) (hm : Memory.wfFrom low m = true) :
    Memory.put m a (Memory.read m a) = m := by
  induction m generalizing low with
  | nil => simp [Memory.put, Memory.entry, Memory.read]
  | cons c rest ih =>
    obtain ⟨b, u⟩ := c
    simp only [Memory.wfFrom, Bool.and_eq_true, decide_eq_true_eq, bne_iff_ne] at hm
    simp only [Memory.put]
    split
    · next h =>
      rw [Memory.read, if_neg (by omega), Memory.read_below hm.2 (by omega)]
      simp [Memory.entry]
    · split
      · next e => subst e; simp [Memory.read, Memory.entry, hm.1.2]
      · next h1 h2 => rw [Memory.read, if_neg h2, ih (by omega) hm.2]

/-! ### MemWrite -/

@[simp] theorem Memory.wf_nil : Memory.wf [] = true := rfl

@[simp] theorem Memory.read_nil (a : Nat) : Memory.read [] a = Memory.unlisted a := rfl

theorem Memory.wf_write {a : Nat} {v : Byte} {m : Memory} (hm : m.wf = true) : (m.write a v).wf = true := by
  unfold Memory.write
  split
  · exact Memory.wfFrom_put (Nat.zero_le a) ‹_› hm
  · exact hm

theorem Memory.read_write_same {a : Nat} {v : Byte} {m : Memory} (hm : m.wf = true) (ha : a < Config.memSize) :
    (m.write a v).read a = v := by
  rw [Memory.write, if_pos ha, Memory.read_put hm, if_pos rfl]

theorem Memory.read_write_other {a b : Nat} {v : Byte} {m : Memory} (hm : m.wf = true) (hb : b ≠ a) :
    (m.write a v).read b = m.read b := by
  unfold Memory.write
  split
  · rw [Memory.read_put hm, if_neg hb]
  · rfl

theorem Memory.write_same {a : Nat} {m : Memory} (hm : m.wf = true) : m.write a (m.read a) = m := by
  unfold Memory.write
  split
  · exact Memory.put_same (Nat.zero_le a) hm
  · rfl

/-! ### Copying bytes -/

theorem Memory.wf_writeBytes {a : Nat} {bytes : List Byte} {m : Memory} (hm : m.wf = true) :
    (m.writeBytes a bytes).wf = true := by
  induction bytes generalizing a m with
  | nil => exact hm
  | cons b rest ih => exact ih (Memory.wf_write hm)

/-- A copy leaves every address outside it alone. -/
theorem Memory.read_writeBytes_outside {a b : Nat} {bytes : List Byte} {m : Memory} (hm : m.wf = true)
    (h : b < a ∨ a + bytes.length ≤ b) : (m.writeBytes a bytes).read b = m.read b := by
  induction bytes generalizing a m with
  | nil => rfl
  | cons c rest ih =>
    simp only [List.length_cons] at h
    rw [Memory.writeBytes, ih (Memory.wf_write hm) (by omega), Memory.read_write_other hm (by omega)]

/-- A copy that stays in memory puts its k-th byte at its k-th address. -/
theorem Memory.read_writeBytes_inside {a k : Nat} {bytes : List Byte} {m : Memory} (hm : m.wf = true)
    (hk : k < bytes.length) (ha : a + bytes.length ≤ Config.memSize) :
    (m.writeBytes a bytes).read (a + k) = bytes[k] := by
  induction bytes generalizing a k m with
  | nil => simp at hk
  | cons c rest ih =>
    simp only [List.length_cons] at hk ha
    rw [Memory.writeBytes]
    cases k with
    | zero =>
      rw [Memory.read_writeBytes_outside (Memory.wf_write hm) (by omega)]
      exact Memory.read_write_same hm (by omega)
    | succ k =>
      have := ih (a := a + 1) (k := k) (Memory.wf_write (a := a) (v := c) hm) (by omega) (by omega)
      rw [show a + (k + 1) = a + 1 + k by omega, this]
      rfl

/-- A copy of bytes that are already there changes nothing. -/
theorem Memory.writeBytes_same {a : Nat} {bytes : List Byte} {m : Memory} (hm : m.wf = true)
    (h : ∀ k, (hk : k < bytes.length) → m.read (a + k) = bytes[k]) : m.writeBytes a bytes = m := by
  induction bytes generalizing a with
  | nil => rfl
  | cons b rest ih =>
    have h0 : m.read a = b := h 0 (by simp)
    rw [Memory.writeBytes, ← h0, Memory.write_same hm]
    refine ih (fun k hk => ?_)
    have := h (k + 1) (by simpa using hk)
    simpa [Nat.add_assoc, Nat.add_comm 1 k] using this

/-! ### Equal memories are equal data -/

theorem Memory.ext_of_wfFrom {low : Nat} {m m' : Memory} (hm : Memory.wfFrom low m = true)
    (hm' : Memory.wfFrom low m' = true) (h : ∀ a, low ≤ a → m.read a = m'.read a) : m = m' := by
  induction m generalizing low m' with
  | nil =>
    cases m' with
    | nil => rfl
    | cons c rest =>
      obtain ⟨b, u⟩ := c
      simp only [Memory.wfFrom, Bool.and_eq_true, decide_eq_true_eq, bne_iff_ne] at hm'
      have := h b hm'.1.1.1
      simp only [Memory.read, if_true] at this
      exact absurd this.symm hm'.1.2
  | cons c rest ih =>
    obtain ⟨b, u⟩ := c
    have hm0 := hm
    simp only [Memory.wfFrom, Bool.and_eq_true, decide_eq_true_eq, bne_iff_ne] at hm
    cases m' with
    | nil =>
      have := h b hm.1.1.1
      simp only [Memory.read, if_true] at this
      exact absurd this hm.1.2
    | cons c' rest' =>
      obtain ⟨b', u'⟩ := c'
      have hm0' := hm'
      simp only [Memory.wfFrom, Bool.and_eq_true, decide_eq_true_eq, bne_iff_ne] at hm'
      have hb := h b hm.1.1.1
      have hb' := h b' hm'.1.1.1
      simp only [Memory.read, if_true] at hb hb'
      have e : b = b' := by
        rcases Nat.lt_trichotomy b b' with lt | e | gt
        · rw [if_neg (by omega), Memory.read_below hm'.2 (by omega)] at hb
          exact absurd hb hm.1.2
        · exact e
        · rw [if_neg (by omega), Memory.read_below hm.2 (by omega)] at hb'
          exact absurd hb'.symm hm'.1.2
      subst e
      rw [if_pos rfl] at hb
      subst hb
      congr 1
      refine ih hm.2 hm'.2 (fun a ha => ?_)
      have := h a (by omega)
      simpa [Memory.read, show a ≠ b by omega] using this

/-- Two memories in canonical form that read alike at every address are the same data. -/
theorem Memory.ext {m m' : Memory} (hm : m.wf = true) (hm' : m'.wf = true) (h : ∀ a, m.read a = m'.read a) :
    m = m' :=
  Memory.ext_of_wfFrom hm hm' (fun a _ => h a)

/-! ### MemRead and Fetch16 (R42, R44) -/

theorem memRead_inside {m : Memory} {a : Nat} (h : a < 0x1000) : memRead m a = .ok (m.read a) := if_pos h

theorem memRead_outside {m : Memory} {a : Nat} (h : ¬ a < 0x1000) : memRead m a = .error (.memoryOutOfBounds a) :=
  if_neg h

/-- What a fetch answers, at every address: the big-endian word, or the fault of the first byte outside memory. -/
theorem fetch16_eq (m : Memory) (a : Nat) :
    fetch16 m a = if a + 1 < 0x1000 then .ok (m.read a ++ m.read (a + 1))
      else if a < 0x1000 then .error (.memoryOutOfBounds (a + 1)) else .error (.memoryOutOfBounds a) := by
  by_cases h : a < 0x1000
  · by_cases h1 : a + 1 < 0x1000 <;> simp [fetch16, memRead, h, h1]
  · simp [fetch16, memRead, h, show ¬ a + 1 < 0x1000 by omega]

/-- A fetch answers a word exactly at the addresses 0x000 to 0xFFE, and the word is that of the two bytes (R82). -/
theorem fetch16_ok_iff {m : Memory} {a : Nat} {w : Word} :
    fetch16 m a = .ok w ↔ a ≤ 0xFFE ∧ w = m.read a ++ m.read (a + 1) := by
  rw [fetch16_eq]
  by_cases h : a + 1 < 0x1000
  · rw [if_pos h]
    constructor
    · intro e
      cases e
      exact ⟨by omega, rfl⟩
    · rintro ⟨-, rfl⟩
      rfl
  · rw [if_neg h]
    constructor
    · intro e
      split at e <;> cases e
    · rintro ⟨h', -⟩
      omega

end Sys2Proof.Machine
end

