-- ==== Sys2Proof/Laws/State.lean ====
section
/-! SUPPORT. One lemma per field of State and per update of it, each true by rfl, so that no later proof unfolds a record
update; then what the register reads give after the register writes. -/

namespace Sys2Proof.Machine

variable (s : State)

/-! ### writeV -/

@[simp] theorem writeV_mem (x : RegIdx) (b : Byte) : (writeV s x b).mem = s.mem := rfl
@[simp] theorem writeV_v (x : RegIdx) (b : Byte) : (writeV s x b).v = s.v.set x b := rfl
@[simp] theorem writeV_i (x : RegIdx) (b : Byte) : (writeV s x b).i = s.i := rfl
@[simp] theorem writeV_pc (x : RegIdx) (b : Byte) : (writeV s x b).pc = s.pc := rfl
@[simp] theorem writeV_stack (x : RegIdx) (b : Byte) : (writeV s x b).stack = s.stack := rfl
@[simp] theorem writeV_dt (x : RegIdx) (b : Byte) : (writeV s x b).dt = s.dt := rfl
@[simp] theorem writeV_st (x : RegIdx) (b : Byte) : (writeV s x b).st = s.st := rfl
@[simp] theorem writeV_disp (x : RegIdx) (b : Byte) : (writeV s x b).disp = s.disp := rfl
@[simp] theorem writeV_stage (x : RegIdx) (b : Byte) : (writeV s x b).stage = s.stage := rfl
@[simp] theorem writeV_fault (x : RegIdx) (b : Byte) : (writeV s x b).fault = s.fault := rfl
@[simp] theorem writeV_renderCount (x : RegIdx) (b : Byte) : (writeV s x b).renderCount = s.renderCount := rfl
@[simp] theorem writeV_freeCount (x : RegIdx) (b : Byte) : (writeV s x b).freeCount = s.freeCount := rfl

/-! ### writeI -/

@[simp] theorem writeI_mem (w : Word) : (writeI s w).mem = s.mem := rfl
@[simp] theorem writeI_v (w : Word) : (writeI s w).v = s.v := rfl
@[simp] theorem writeI_i (w : Word) : (writeI s w).i = w := rfl
@[simp] theorem writeI_pc (w : Word) : (writeI s w).pc = s.pc := rfl
@[simp] theorem writeI_stack (w : Word) : (writeI s w).stack = s.stack := rfl
@[simp] theorem writeI_dt (w : Word) : (writeI s w).dt = s.dt := rfl
@[simp] theorem writeI_st (w : Word) : (writeI s w).st = s.st := rfl
@[simp] theorem writeI_disp (w : Word) : (writeI s w).disp = s.disp := rfl
@[simp] theorem writeI_stage (w : Word) : (writeI s w).stage = s.stage := rfl
@[simp] theorem writeI_fault (w : Word) : (writeI s w).fault = s.fault := rfl
@[simp] theorem writeI_renderCount (w : Word) : (writeI s w).renderCount = s.renderCount := rfl
@[simp] theorem writeI_freeCount (w : Word) : (writeI s w).freeCount = s.freeCount := rfl

/-! ### writePc -/

@[simp] theorem writePc_mem (w : Word) : (writePc s w).mem = s.mem := rfl
@[simp] theorem writePc_v (w : Word) : (writePc s w).v = s.v := rfl
@[simp] theorem writePc_i (w : Word) : (writePc s w).i = s.i := rfl
@[simp] theorem writePc_pc (w : Word) : (writePc s w).pc = w := rfl
@[simp] theorem writePc_stack (w : Word) : (writePc s w).stack = s.stack := rfl
@[simp] theorem writePc_dt (w : Word) : (writePc s w).dt = s.dt := rfl
@[simp] theorem writePc_st (w : Word) : (writePc s w).st = s.st := rfl
@[simp] theorem writePc_disp (w : Word) : (writePc s w).disp = s.disp := rfl
@[simp] theorem writePc_stage (w : Word) : (writePc s w).stage = s.stage := rfl
@[simp] theorem writePc_fault (w : Word) : (writePc s w).fault = s.fault := rfl
@[simp] theorem writePc_renderCount (w : Word) : (writePc s w).renderCount = s.renderCount := rfl
@[simp] theorem writePc_freeCount (w : Word) : (writePc s w).freeCount = s.freeCount := rfl

/-! ### advancePc -/

@[simp] theorem advancePc_mem : (advancePc s).mem = s.mem := rfl
@[simp] theorem advancePc_v : (advancePc s).v = s.v := rfl
@[simp] theorem advancePc_i : (advancePc s).i = s.i := rfl
@[simp] theorem advancePc_pc : (advancePc s).pc = s.pc + 2#16 := rfl
@[simp] theorem advancePc_stack : (advancePc s).stack = s.stack := rfl
@[simp] theorem advancePc_dt : (advancePc s).dt = s.dt := rfl
@[simp] theorem advancePc_st : (advancePc s).st = s.st := rfl
@[simp] theorem advancePc_disp : (advancePc s).disp = s.disp := rfl
@[simp] theorem advancePc_stage : (advancePc s).stage = s.stage := rfl
@[simp] theorem advancePc_fault : (advancePc s).fault = s.fault := rfl
@[simp] theorem advancePc_renderCount : (advancePc s).renderCount = s.renderCount := rfl
@[simp] theorem advancePc_freeCount : (advancePc s).freeCount = s.freeCount := rfl

/-! ### emptyStack -/

@[simp] theorem emptyStack_mem : (emptyStack s).mem = s.mem := rfl
@[simp] theorem emptyStack_v : (emptyStack s).v = s.v := rfl
@[simp] theorem emptyStack_i : (emptyStack s).i = s.i := rfl
@[simp] theorem emptyStack_pc : (emptyStack s).pc = s.pc := rfl
@[simp] theorem emptyStack_stack : (emptyStack s).stack = [] := rfl
@[simp] theorem emptyStack_dt : (emptyStack s).dt = s.dt := rfl
@[simp] theorem emptyStack_st : (emptyStack s).st = s.st := rfl
@[simp] theorem emptyStack_disp : (emptyStack s).disp = s.disp := rfl
@[simp] theorem emptyStack_stage : (emptyStack s).stage = s.stage := rfl
@[simp] theorem emptyStack_fault : (emptyStack s).fault = s.fault := rfl
@[simp] theorem emptyStack_renderCount : (emptyStack s).renderCount = s.renderCount := rfl
@[simp] theorem emptyStack_freeCount : (emptyStack s).freeCount = s.freeCount := rfl

/-! ### writeDisp -/

@[simp] theorem writeDisp_mem (d : Display) : (writeDisp s d).mem = s.mem := rfl
@[simp] theorem writeDisp_v (d : Display) : (writeDisp s d).v = s.v := rfl
@[simp] theorem writeDisp_i (d : Display) : (writeDisp s d).i = s.i := rfl
@[simp] theorem writeDisp_pc (d : Display) : (writeDisp s d).pc = s.pc := rfl
@[simp] theorem writeDisp_stack (d : Display) : (writeDisp s d).stack = s.stack := rfl
@[simp] theorem writeDisp_dt (d : Display) : (writeDisp s d).dt = s.dt := rfl
@[simp] theorem writeDisp_st (d : Display) : (writeDisp s d).st = s.st := rfl
@[simp] theorem writeDisp_disp (d : Display) : (writeDisp s d).disp = d := rfl
@[simp] theorem writeDisp_stage (d : Display) : (writeDisp s d).stage = s.stage := rfl
@[simp] theorem writeDisp_fault (d : Display) : (writeDisp s d).fault = s.fault := rfl
@[simp] theorem writeDisp_renderCount (d : Display) : (writeDisp s d).renderCount = s.renderCount := rfl
@[simp] theorem writeDisp_freeCount (d : Display) : (writeDisp s d).freeCount = s.freeCount := rfl

/-! ### notifyRender -/

@[simp] theorem notifyRender_mem : (notifyRender s).mem = s.mem := rfl
@[simp] theorem notifyRender_v : (notifyRender s).v = s.v := rfl
@[simp] theorem notifyRender_i : (notifyRender s).i = s.i := rfl
@[simp] theorem notifyRender_pc : (notifyRender s).pc = s.pc := rfl
@[simp] theorem notifyRender_stack : (notifyRender s).stack = s.stack := rfl
@[simp] theorem notifyRender_dt : (notifyRender s).dt = s.dt := rfl
@[simp] theorem notifyRender_st : (notifyRender s).st = s.st := rfl
@[simp] theorem notifyRender_disp : (notifyRender s).disp = s.disp := rfl
@[simp] theorem notifyRender_stage : (notifyRender s).stage = s.stage := rfl
@[simp] theorem notifyRender_fault : (notifyRender s).fault = s.fault := rfl
@[simp] theorem notifyRender_renderCount : (notifyRender s).renderCount = s.renderCount + 1 := rfl
@[simp] theorem notifyRender_freeCount : (notifyRender s).freeCount = s.freeCount := rfl

/-! ### raise -/

@[simp] theorem raise_mem (f : Fault) : (raise f s).mem = s.mem := rfl
@[simp] theorem raise_v (f : Fault) : (raise f s).v = s.v := rfl
@[simp] theorem raise_i (f : Fault) : (raise f s).i = s.i := rfl
@[simp] theorem raise_pc (f : Fault) : (raise f s).pc = s.pc := rfl
@[simp] theorem raise_stack (f : Fault) : (raise f s).stack = s.stack := rfl
@[simp] theorem raise_dt (f : Fault) : (raise f s).dt = s.dt := rfl
@[simp] theorem raise_st (f : Fault) : (raise f s).st = s.st := rfl
@[simp] theorem raise_disp (f : Fault) : (raise f s).disp = s.disp := rfl
@[simp] theorem raise_stage (f : Fault) : (raise f s).stage = s.stage := rfl
@[simp] theorem raise_fault (f : Fault) : (raise f s).fault = some f := rfl
@[simp] theorem raise_renderCount (f : Fault) : (raise f s).renderCount = s.renderCount := rfl
@[simp] theorem raise_freeCount (f : Fault) : (raise f s).freeCount = s.freeCount := rfl

/-! ### leaveDrawOpen -/

@[simp] theorem leaveDrawOpen_mem : (leaveDrawOpen s).mem = s.mem := rfl
@[simp] theorem leaveDrawOpen_v : (leaveDrawOpen s).v = s.v.set 15 (Config.freeByte s.freeCount) := rfl
@[simp] theorem leaveDrawOpen_i : (leaveDrawOpen s).i = s.i := rfl
@[simp] theorem leaveDrawOpen_pc : (leaveDrawOpen s).pc = s.pc := rfl
@[simp] theorem leaveDrawOpen_stack : (leaveDrawOpen s).stack = s.stack := rfl
@[simp] theorem leaveDrawOpen_dt : (leaveDrawOpen s).dt = s.dt := rfl
@[simp] theorem leaveDrawOpen_st : (leaveDrawOpen s).st = s.st := rfl
@[simp] theorem leaveDrawOpen_disp : (leaveDrawOpen s).disp = Config.freeDisplay s.freeCount := rfl
@[simp] theorem leaveDrawOpen_stage : (leaveDrawOpen s).stage = s.stage := rfl
@[simp] theorem leaveDrawOpen_fault : (leaveDrawOpen s).fault = s.fault := rfl
@[simp] theorem leaveDrawOpen_renderCount : (leaveDrawOpen s).renderCount = s.renderCount := rfl
@[simp] theorem leaveDrawOpen_freeCount : (leaveDrawOpen s).freeCount = s.freeCount + 1 := rfl

/-! ### placeAtPc -/

@[simp] theorem placeAtPc_mem (bytes : List Byte) : (placeAtPc s bytes).mem = Memory.writeBytes s.mem s.pc.toNat bytes := rfl
@[simp] theorem placeAtPc_v (bytes : List Byte) : (placeAtPc s bytes).v = s.v := rfl
@[simp] theorem placeAtPc_i (bytes : List Byte) : (placeAtPc s bytes).i = s.i := rfl
@[simp] theorem placeAtPc_pc (bytes : List Byte) : (placeAtPc s bytes).pc = s.pc := rfl
@[simp] theorem placeAtPc_stack (bytes : List Byte) : (placeAtPc s bytes).stack = s.stack := rfl
@[simp] theorem placeAtPc_dt (bytes : List Byte) : (placeAtPc s bytes).dt = s.dt := rfl
@[simp] theorem placeAtPc_st (bytes : List Byte) : (placeAtPc s bytes).st = s.st := rfl
@[simp] theorem placeAtPc_disp (bytes : List Byte) : (placeAtPc s bytes).disp = s.disp := rfl
@[simp] theorem placeAtPc_stage (bytes : List Byte) : (placeAtPc s bytes).stage = .ready := rfl
@[simp] theorem placeAtPc_fault (bytes : List Byte) : (placeAtPc s bytes).fault = none := rfl
@[simp] theorem placeAtPc_renderCount (bytes : List Byte) : (placeAtPc s bytes).renderCount = s.renderCount := rfl
@[simp] theorem placeAtPc_freeCount (bytes : List Byte) : (placeAtPc s bytes).freeCount = s.freeCount := rfl

/-! ### warmReset -/

@[simp] theorem warmReset_mem : (warmReset s).mem = s.mem := rfl
@[simp] theorem warmReset_v : (warmReset s).v = s.v := rfl
@[simp] theorem warmReset_i : (warmReset s).i = 0x0000#16 := rfl
@[simp] theorem warmReset_pc : (warmReset s).pc = 0x0200#16 := rfl
@[simp] theorem warmReset_stack : (warmReset s).stack = [] := rfl
@[simp] theorem warmReset_dt : (warmReset s).dt = s.dt := rfl
@[simp] theorem warmReset_st : (warmReset s).st = s.st := rfl
@[simp] theorem warmReset_disp : (warmReset s).disp = displayOff := rfl
@[simp] theorem warmReset_stage : (warmReset s).stage = .ready := rfl
@[simp] theorem warmReset_fault : (warmReset s).fault = none := rfl
@[simp] theorem warmReset_renderCount : (warmReset s).renderCount = s.renderCount := rfl
@[simp] theorem warmReset_freeCount : (warmReset s).freeCount = s.freeCount := rfl

/-! ### Register reads after register writes (R21) -/

theorem raiseUnsupported_eq (w : Word) : raiseUnsupported w s = raise (.unsupportedInstruction w (subCause w)) s := rfl

@[simp] theorem readV_writeV_same (x : RegIdx) (b : Byte) : readV (writeV s x b) x = b := by
  simp [readV]

theorem readV_writeV_other (x z : RegIdx) (b : Byte) (h : z ≠ x) : readV (writeV s x b) z = readV s z := by
  have h' : x.val ≠ z.val := fun e => h (Fin.ext e.symm)
  simp [readV, Vector.getElem_set_ne, h']

/-- A register read looks at the register file alone. -/
theorem readV_congr (t : State) (x : RegIdx) (h : s.v = t.v) : readV s x = readV t x := by
  simp [readV, h]

end Sys2Proof.Machine
end

