-- ==== Sys2Proof/Laws/Cycle.lean ====
section
/-! SUPPORT. The cycle: what the bytes placed at PC fetch as, and everything a cycle, a step and a call can do. -/

namespace Sys2Proof.Machine

theorem wordBytes_append (w : Word) : field w 8 8 ++ field w 0 8 = w := by
  apply BitVec.eq_of_toNat_eq
  have h := w.isLt
  simp only [field, BitVec.toNat_append, BitVec.extractLsb'_toNat, Nat.shiftRight_zero]
  rw [← Nat.shiftLeft_add_eq_or_of_lt (Nat.mod_lt _ (by decide))]
  simp only [Nat.shiftLeft_eq, Nat.shiftRight_eq_div_pow]
  omega

/-- Everything `cycle` can do, whatever effect it is given: refuse, report the latched fault, latch the fault of the
fetch with no other change, or run the effect of the fetched word with PC advanced (R80, R81, R142). -/
theorem cycle_eq (run : Word → State → Host.Outcome State Fault Refusal) (s : State) :
    (s.stage ≠ .ready ∧ cycle run s = .refused .notReady) ∨
    (s.stage = .ready ∧ ∃ f, s.fault = some f ∧ cycle run s = .fault f) ∨
    (s.stage = .ready ∧ s.fault = none ∧
      ((∃ f, fetch16 s.mem s.pc.toNat = .error f ∧ cycle run s = .next (raise f s)) ∨
       (∃ w, fetch16 s.mem s.pc.toNat = .ok w ∧ cycle run s = run w (advancePc s)))) := by
  unfold cycle
  cases hs : s.stage with
  | constructed => exact .inl ⟨by simp, rfl⟩
  | loaded => exact .inl ⟨by simp, rfl⟩
  | ready =>
    cases hf : s.fault with
    | some f => exact .inr (.inl ⟨rfl, f, rfl, rfl⟩)
    | none =>
      refine .inr (.inr ⟨rfl, rfl, ?_⟩)
      cases hw : fetch16 s.mem s.pc.toNat with
      | error f => exact .inl ⟨f, rfl, rfl⟩
      | ok w => exact .inr ⟨w, rfl, rfl⟩

@[simp] theorem outcomeOf_fault (f : Fault) : outcomeOf (.fault f) = .fault f := rfl
@[simp] theorem outcomeOf_refused (r : Refusal) : outcomeOf (.refused r) = .refused r := rfl

/-- A call that leaves no fault latched answers its state. -/
theorem outcomeOf_next {t : State} (h : t.fault = none) : outcomeOf (.next t) = .next t := by simp only [outcomeOf, h]

/-- A call that leaves a fault latched answers that fault. -/
theorem outcomeOf_raised {t : State} {f : Fault} (h : t.fault = some f) : outcomeOf (.next t) = .fault f := by
  simp only [outcomeOf, h]

/-- A step answers a next state exactly where the call leaves that state with no fault latched (R150). -/
theorem step_next_iff {s t : State} : step s = .next t ↔ runCycle s = .next t ∧ t.fault = none := by
  constructor
  · intro e
    unfold step at e
    cases h : runCycle s with
    | next u =>
      rw [h] at e
      cases hf : u.fault with
      | none => rw [outcomeOf_next hf] at e; cases e; exact ⟨rfl, hf⟩
      | some f => rw [outcomeOf_raised hf] at e; cases e
    | fault f => rw [h] at e; cases e
    | refused r => rw [h] at e; cases e
  · rintro ⟨e, hf⟩
    rw [step, e, outcomeOf_next hf]

/-- What the host gets from a call that runs (R149). -/
theorem executeCycle_next {s t : State} (h : runCycle s = .next t) (hf : t.fault = none) :
    executeCycle s = (t, .success) := by simp only [executeCycle, h, hf]

/-- What the host gets from a call that raises a fault: the state with the latch, and the record (R137, R149). -/
theorem executeCycle_raised {s t : State} {f : Fault} (h : runCycle s = .next t) (hf : t.fault = some f) :
    executeCycle s = (t, .faulted f) := by simp only [executeCycle, h, hf]

/-- The state after a call: the one it ran to, or the state before it (R84, R85). -/
theorem executeCycle_state (s : State) :
    runCycle s = .next (executeCycle s).1 ∨ ((∀ t, runCycle s ≠ .next t) ∧ (executeCycle s).1 = s) := by
  unfold executeCycle
  cases h : runCycle s with
  | next t => exact .inl rfl
  | fault f => exact .inr ⟨by simp, rfl⟩
  | refused r => exact .inr ⟨by simp, rfl⟩

/-- The cases of a call that runs: the fetch or the instruction answers the state it leaves. -/
theorem runCycle_next_cases {s t : State} (h : runCycle s = .next t) :
    s.stage = .ready ∧ s.fault = none ∧
    ((∃ f, fetch16 s.mem s.pc.toNat = .error f ∧ t = raise f s) ∨
     (∃ w, fetch16 s.mem s.pc.toNat = .ok w ∧ exec (decodeWord w) (advancePc s) = .next t)) := by
  rcases cycle_eq (fun w t => exec (decodeWord w) t) s with ⟨-, e⟩ | ⟨-, f, -, e⟩ | ⟨hs, hf, ⟨f, hw, e⟩ | ⟨w, hw, e⟩⟩
  · rw [runCycle, e] at h; cases h
  · rw [runCycle, e] at h; cases h
  · rw [runCycle, e] at h
    cases h
    exact ⟨hs, hf, .inl ⟨f, hw, rfl⟩⟩
  · rw [runCycle, e] at h
    exact ⟨hs, hf, .inr ⟨w, hw, h⟩⟩

/-- The word placed at a PC inside memory is the word fetched there. -/
theorem fetch16_placeAtPc (s : State) (w : Word) (hm : s.mem.wf = true) (hpc : s.pc.toNat + 1 < Config.memSize) :
    fetch16 (placeAtPc s (wordBytes w)).mem s.pc.toNat = .ok w := by
  rw [fetch16_eq, if_pos hpc, placeAtPc_mem]
  have hl : s.pc.toNat + (wordBytes w).length ≤ Config.memSize := by simp only [wordBytes, List.length]; omega
  have h0 := Memory.read_writeBytes_inside (a := s.pc.toNat) (k := 0) hm (by simp [wordBytes]) hl
  have h1 := Memory.read_writeBytes_inside (a := s.pc.toNat) (k := 1) hm (by simp [wordBytes]) hl
  rw [Nat.add_zero] at h0
  rw [h0, h1]
  exact congrArg _ (wordBytes_append w)

end Sys2Proof.Machine
end

