-- ==== Sys2Proof/Laws/Decode.lean ====
section
/-! SUPPORT. Fields and formats: what a field of an encoded word is, that a word is the format of its own fields, and what
the dispatch gives for each value of OP (30_encoding.md R61, R62, R65). -/

namespace Sys2Proof

theorem field_toNat (w : Word) (lo len : Nat) : (field w lo len).toNat = w.toNat / 2 ^ lo % 2 ^ len := by
  rw [field, BitVec.extractLsb'_toNat, Nat.shiftRight_eq_div_pow]

theorem append_toNat {m n : Nat} (a : BitVec m) (b : BitVec n) : (a ++ b).toNat = a.toNat * 2 ^ n + b.toNat := by
  rw [BitVec.toNat_append, ← Nat.shiftLeft_add_eq_or_of_lt b.isLt, Nat.shiftLeft_eq]

/-! ### The formats as numbers -/

theorem formatNNN_toNat (op : BitVec 4) (nnn : Addr12) : (formatNNN op nnn).toNat = op.toNat * 4096 + nnn.toNat :=
  append_toNat op nnn

theorem formatXNN_toNat (op : BitVec 4) (x : RegIdx) (nn : Byte) :
    (formatXNN op x nn).toNat = op.toNat * 4096 + (x.val * 256 + nn.toNat) :=
  (append_toNat op _).trans (by rw [append_toNat]; rfl)

theorem formatXYN_toNat (op : BitVec 4) (x y : RegIdx) (n : BitVec 4) :
    (formatXYN op x y n).toNat = op.toNat * 4096 + (x.val * 256 + (y.val * 16 + n.toNat)) :=
  (append_toNat op _).trans (by rw [append_toNat, append_toNat]; rfl)

/-! ### The fields of each format -/

theorem formatNNN_fields (op : BitVec 4) (nnn : Addr12) :
    field (formatNNN op nnn) 12 4 = op ∧ field (formatNNN op nnn) 0 12 = nnn := by
  have h1 := op.isLt
  have h2 := nnn.isLt
  constructor <;> apply BitVec.eq_of_toNat_eq <;> rw [field_toNat, formatNNN_toNat] <;> omega

theorem formatXNN_fields (op : BitVec 4) (x : RegIdx) (nn : Byte) :
    field (formatXNN op x nn) 12 4 = op ∧ (field (formatXNN op x nn) 8 4).toFin = x ∧
      field (formatXNN op x nn) 0 8 = nn := by
  have h1 := op.isLt
  have h2 := x.isLt
  have h3 := nn.isLt
  refine ⟨BitVec.eq_of_toNat_eq ?_, Fin.ext ?_, BitVec.eq_of_toNat_eq ?_⟩ <;>
    simp only [BitVec.val_toFin, field_toNat, formatXNN_toNat] <;> omega

theorem formatXYN_fields (op : BitVec 4) (x y : RegIdx) (n : BitVec 4) :
    field (formatXYN op x y n) 12 4 = op ∧ (field (formatXYN op x y n) 8 4).toFin = x ∧
      (field (formatXYN op x y n) 4 4).toFin = y ∧ field (formatXYN op x y n) 0 4 = n := by
  have h1 := op.isLt
  have h2 := x.isLt
  have h3 := y.isLt
  have h4 := n.isLt
  refine ⟨BitVec.eq_of_toNat_eq ?_, Fin.ext ?_, Fin.ext ?_, BitVec.eq_of_toNat_eq ?_⟩ <;>
    simp only [BitVec.val_toFin, field_toNat, formatXYN_toNat] <;> omega

/-! ### A word is the format of its own fields -/

theorem word_eq_formatNNN (w : Word) : w = formatNNN (field w 12 4) (field w 0 12) := by
  have h := w.isLt
  apply BitVec.eq_of_toNat_eq
  simp only [formatNNN_toNat, field_toNat]
  omega

theorem word_eq_formatXNN (w : Word) : w = formatXNN (field w 12 4) (field w 8 4).toFin (field w 0 8) := by
  have h := w.isLt
  apply BitVec.eq_of_toNat_eq
  simp only [formatXNN_toNat, BitVec.val_toFin, field_toNat]
  omega

theorem word_eq_formatXYN (w : Word) :
    w = formatXYN (field w 12 4) (field w 8 4).toFin (field w 4 4).toFin (field w 0 4) := by
  have h := w.isLt
  apply BitVec.eq_of_toNat_eq
  simp only [formatXYN_toNat, BitVec.val_toFin, field_toNat]
  omega

/-! ### The dispatch, by OP -/

theorem decodeWord_op0 {w : Word} (h : field w 12 4 = 0x0#4) :
    decodeWord w = if w = 0x00E0#16 then .cls else .sys (field w 0 12) := by
  simp [decodeWord, describeWord, Descriptor.instr, h]

theorem decodeWord_op1 {w : Word} (h : field w 12 4 = 0x1#4) :
    decodeWord w = .jp (field w 0 12) := by
  simp [decodeWord, describeWord, Descriptor.instr, h]

theorem decodeWord_op2 {w : Word} (h : field w 12 4 = 0x2#4) :
    decodeWord w = .unsupported2 (field w 0 12) := by
  simp [decodeWord, describeWord, Descriptor.instr, h]

theorem decodeWord_op3 {w : Word} (h : field w 12 4 = 0x3#4) :
    decodeWord w = .unsupported3 (field w 0 12) := by
  simp [decodeWord, describeWord, Descriptor.instr, h]

theorem decodeWord_op4 {w : Word} (h : field w 12 4 = 0x4#4) :
    decodeWord w = .unsupported4 (field w 0 12) := by
  simp [decodeWord, describeWord, Descriptor.instr, h]

theorem decodeWord_op5 {w : Word} (h : field w 12 4 = 0x5#4) :
    decodeWord w = .unsupported5 (field w 0 12) := by
  simp [decodeWord, describeWord, Descriptor.instr, h]

theorem decodeWord_op6 {w : Word} (h : field w 12 4 = 0x6#4) :
    decodeWord w = .ldImm (field w 8 4).toFin (field w 0 8) := by
  simp [decodeWord, describeWord, Descriptor.instr, h]

theorem decodeWord_op7 {w : Word} (h : field w 12 4 = 0x7#4) :
    decodeWord w = .addImm (field w 8 4).toFin (field w 0 8) := by
  simp [decodeWord, describeWord, Descriptor.instr, h]

theorem decodeWord_op8 {w : Word} (h : field w 12 4 = 0x8#4) :
    decodeWord w = .unsupported8 (field w 0 12) := by
  simp [decodeWord, describeWord, Descriptor.instr, h]

theorem decodeWord_op9 {w : Word} (h : field w 12 4 = 0x9#4) :
    decodeWord w = .unsupported9 (field w 0 12) := by
  simp [decodeWord, describeWord, Descriptor.instr, h]

theorem decodeWord_opA {w : Word} (h : field w 12 4 = 0xA#4) :
    decodeWord w = .ldI (field w 0 12) := by
  simp [decodeWord, describeWord, Descriptor.instr, h]

theorem decodeWord_opB {w : Word} (h : field w 12 4 = 0xB#4) :
    decodeWord w = .unsupportedB (field w 0 12) := by
  simp [decodeWord, describeWord, Descriptor.instr, h]

theorem decodeWord_opC {w : Word} (h : field w 12 4 = 0xC#4) :
    decodeWord w = .unsupportedC (field w 0 12) := by
  simp [decodeWord, describeWord, Descriptor.instr, h]

theorem decodeWord_opD {w : Word} (h : field w 12 4 = 0xD#4) :
    decodeWord w = .drw (field w 8 4).toFin (field w 4 4).toFin (field w 0 4) := by
  simp [decodeWord, describeWord, Descriptor.instr, h]

theorem decodeWord_opE {w : Word} (h : field w 12 4 = 0xE#4) :
    decodeWord w = .unsupportedE (field w 0 12) := by
  simp [decodeWord, describeWord, Descriptor.instr, h]

theorem decodeWord_opF {w : Word} (h : field w 12 4 = 0xF#4) :
    decodeWord w = .unsupportedF (field w 0 12) := by
  simp [decodeWord, describeWord, Descriptor.instr, h]

/-- OP has one of sixteen values. -/
theorem op_cases (op : BitVec 4) :
    op = 0x0#4 ∨ op = 0x1#4 ∨ op = 0x2#4 ∨ op = 0x3#4 ∨ op = 0x4#4 ∨ op = 0x5#4 ∨ op = 0x6#4 ∨ op = 0x7#4 ∨
    op = 0x8#4 ∨ op = 0x9#4 ∨ op = 0xA#4 ∨ op = 0xB#4 ∨ op = 0xC#4 ∨ op = 0xD#4 ∨ op = 0xE#4 ∨ op = 0xF#4 := by
  revert op
  decide

end Sys2Proof
end

