-- ==== Sys2Proof/Laws/Display.lean ====
section
/-! SUPPORT. The display buffer: what a pixel reads after a pixel write, and that buffers with equal pixels are equal. -/

namespace Sys2Proof.Machine

@[simp] theorem pixel_displayOff (x y : Nat) : pixel displayOff x y = false := by
  unfold pixel displayOff
  split <;> simp

/-- There is no pixel outside 64 by 32. -/
theorem pixel_outside {d : Display} {x y : Nat} (h : ¬ (x < 64 ∧ y < 32)) : pixel d x y = false := dif_neg h

/-- A pixel write changes that pixel and no other. -/
theorem pixel_setPixel {d : Display} {x y : Nat} {on : Bool} (h : x < 64 ∧ y < 32) (x' y' : Nat) :
    pixel (setPixel d x y on) x' y' = if x' = x ∧ y' = y then on else pixel d x' y' := by
  unfold setPixel
  rw [dif_pos h]
  by_cases h' : x' < 64 ∧ y' < 32
  · simp only [pixel, dif_pos h']
    by_cases ey : y' = y
    · subst ey
      by_cases ex : x' = x
      · subst ex; simp
      · simp [ex, Vector.getElem_set_ne, Ne.symm ex]
    · simp [ey, Vector.getElem_set_ne, Ne.symm ey]
  · rw [pixel_outside h', pixel_outside h', if_neg]
    rintro ⟨rfl, rfl⟩
    exact h' h

/-- Display buffers with equal pixels are equal. -/
theorem display_ext {d d' : Display} (h : ∀ x y, x < 64 → y < 32 → pixel d x y = pixel d' x y) : d = d' := by
  apply Vector.ext
  intro y hy
  apply Vector.ext
  intro x hx
  have := h x y hx hy
  simpa [pixel, hx, hy] using this

end Sys2Proof.Machine
end

