-- ==== Sys2Proof/Laws/Draw.lean ====
section
/-! SUPPORT. The draw's shared loops: what one bit and one row of a sprite do to the pixels and to VF, and what the next
row of the row loop does. -/

namespace Sys2Proof.Machine

theorem plotBit_pixel {bit : Bool} {x y : Nat} {p : Canvas} (h : x < 64 ∧ y < 32) (x' y' : Nat) :
    pixel (plotBit bit x y p).disp x' y' =
      if x' = x ∧ y' = y then (pixel p.disp x y ^^ bit) else pixel p.disp x' y' := by
  cases bit with
  | false =>
    by_cases e : x' = x ∧ y' = y
    · rw [if_pos e, e.1, e.2, Bool.xor_false]; rfl
    · rw [if_neg e]; rfl
  | true => simp [plotBit, pixel_setPixel h]

theorem plotBit_vf {bit : Bool} {x y : Nat} {p : Canvas} :
    (plotBit bit x y p).vf = if bit = true ∧ pixel p.disp x y = true then vfCollision else p.vf := by
  cases bit <;> simp [plotBit, collisionFlag]

/-- The bits of one sprite byte from column `x`: pixel (x + c, y) of an in-bounds column c is XORed with bit k - 1 - c,
every other pixel is as it was. -/
theorem drawBits_pixel {b : Byte} {y : Nat} (hy : y < 32) (k x : Nat) (p : Canvas) (x' y' : Nat) :
    pixel (drawBits b y k x p).disp x' y' =
      if y' = y ∧ x ≤ x' ∧ x' < x + k ∧ x' < 64 then (pixel p.disp x' y' ^^ b.getLsbD (k - 1 - (x' - x)))
      else pixel p.disp x' y' := by
  induction k generalizing x p with
  | zero => rw [drawBits, if_neg (by omega)]
  | succ k ih =>
    rw [drawBits, Config.displayWidth]
    by_cases hx : 64 ≤ x
    · rw [if_pos hx, if_neg (by omega)]
    · rw [if_neg hx, ih, plotBit_pixel ⟨by omega, hy⟩]
      by_cases h0 : x' = x ∧ y' = y
      · obtain ⟨rfl, rfl⟩ := h0
        rw [if_neg (by omega), if_pos ⟨rfl, rfl⟩, if_pos (by omega)]
        simp
      · by_cases h1 : y' = y ∧ x + 1 ≤ x' ∧ x' < x + 1 + k ∧ x' < 64
        · rw [if_pos h1, if_neg h0, if_pos (by omega), show k - 1 - (x' - (x + 1)) = k + 1 - 1 - (x' - x) by omega]
        · rw [if_neg h1, if_neg h0, if_neg (by omega)]

/-- VF after the bits of one sprite byte: set if some in-bounds column has a sprite bit 1 over an on pixel, otherwise as
it was. -/
theorem drawBits_vf {b : Byte} {y : Nat} (hy : y < 32) (k x : Nat) (p : Canvas) :
    ((∃ c, c < k ∧ x + c < 64 ∧ b.getLsbD (k - 1 - c) = true ∧ pixel p.disp (x + c) y = true) ∧
      (drawBits b y k x p).vf = vfCollision) ∨
    ((¬ ∃ c, c < k ∧ x + c < 64 ∧ b.getLsbD (k - 1 - c) = true ∧ pixel p.disp (x + c) y = true) ∧
      (drawBits b y k x p).vf = p.vf) := by
  induction k generalizing x p with
  | zero =>
    refine .inr ⟨?_, rfl⟩
    rintro ⟨c, hc, -⟩
    omega
  | succ k ih =>
    rw [drawBits, Config.displayWidth]
    by_cases hx : 64 ≤ x
    · rw [if_pos hx]
      refine .inr ⟨?_, rfl⟩
      rintro ⟨c, -, hc, -⟩
      omega
    · rw [if_neg hx]
      have hother : ∀ c, pixel (plotBit (b.getLsbD k) x y p).disp (x + 1 + c) y = pixel p.disp (x + (c + 1)) y := by
        intro c
        rw [plotBit_pixel ⟨by omega, hy⟩, if_neg (by omega), show x + 1 + c = x + (c + 1) by omega]
      rcases ih (x + 1) (plotBit (b.getLsbD k) x y p) with ⟨⟨c, hc, hxc, hb, hp⟩, hv⟩ | ⟨hno, hv⟩
      · refine .inl ⟨⟨c + 1, by omega, by omega, ?_, ?_⟩, hv⟩
        · rwa [show k + 1 - 1 - (c + 1) = k - 1 - c by omega]
        · rwa [hother] at hp
      · rw [hv, plotBit_vf]
        by_cases h0 : b.getLsbD k = true ∧ pixel p.disp x y = true
        · rw [if_pos h0]
          exact .inl ⟨⟨0, by omega, by omega, by simpa using h0.1, by simpa using h0.2⟩, rfl⟩
        · rw [if_neg h0]
          refine .inr ⟨?_, rfl⟩
          rintro ⟨c, hc, hxc, hb, hp⟩
          cases c with
          | zero => exact h0 ⟨by simpa using hb, by simpa using hp⟩
          | succ c =>
            refine hno ⟨c, by omega, by omega, ?_, ?_⟩
            · rwa [show k - 1 - c = k + 1 - 1 - (c + 1) by omega]
            · rwa [hother]

/-- The row loop on one more row: the read first, then the clip test, then the row (R113). -/
theorem drawRows_succ (m : Memory) (x0 k a y : Nat) (p : Canvas) :
    drawRows m x0 (k + 1) a y p =
      match memRead m a with
      | .error f => .error f
      | .ok b => if 32 ≤ y then .ok p else drawRows m x0 k (a + 1) (y + 1) (drawBits b y 8 x0 p) := rfl

/-- The row loop faults at the first row address above 0xFFF, and only if it reads one: of `k` rows from display row `y`
it reads one more than it draws, if there are so many (R113, R116). -/
theorem drawRows_error {m : Memory} {x0 k a y : Nat} {p : Canvas}
    (h : ¬ (a + min k (min k (32 - y) + 1) ≤ 0x1000 ∨ k = 0)) :
    drawRows m x0 k a y p = .error (.memoryOutOfBounds (max a 0x1000)) := by
  induction k generalizing a y p with
  | zero => exact absurd (.inr rfl) h
  | succ k ih =>
    rw [drawRows_succ]
    by_cases ha : a < 0x1000
    · rw [memRead_inside ha]
      simp only
      rw [if_neg (by omega), ih (by omega)]
      congr 2
      omega
    · rw [memRead_outside ha]
      simp only
      congr 2
      omega

/-- The row loop without a fault: every pixel of the clipped sprite is XORed with its sprite bit, every other pixel is as
it was, and VF is set exactly if a pixel is turned off (R113, R114). -/
theorem drawRows_ok {m : Memory} {x0 k a y : Nat} {p : Canvas}
    (h : a + min k (min k (32 - y) + 1) ≤ 0x1000 ∨ k = 0) :
    ∃ q, drawRows m x0 k a y p = .ok q ∧
      (∀ x' y', pixel q.disp x' y' =
        if (x0 ≤ x' ∧ x' < x0 + 8 ∧ x' < 64) ∧ y ≤ y' ∧ y' < y + min k (32 - y) then
          (pixel p.disp x' y' ^^ (m.read (a + (y' - y))).getLsbD (7 - (x' - x0)))
        else pixel p.disp x' y') ∧
      (q.vf = vfCollision ∨ q.vf = p.vf) ∧
      ((∃ c r, c < 8 ∧ x0 + c < 64 ∧ r < min k (32 - y) ∧ (m.read (a + r)).getLsbD (7 - c) = true ∧
        pixel p.disp (x0 + c) (y + r) = true) → q.vf = vfCollision) ∧
      ((¬ ∃ c r, c < 8 ∧ x0 + c < 64 ∧ r < min k (32 - y) ∧ (m.read (a + r)).getLsbD (7 - c) = true ∧
        pixel p.disp (x0 + c) (y + r) = true) → q.vf = p.vf) := by
  induction k generalizing a y p with
  | zero =>
    refine ⟨p, rfl, fun x' y' => (if_neg (by omega)).symm, .inr rfl, ?_, fun _ => rfl⟩
    rintro ⟨c, r, -, -, hr, -⟩
    omega
  | succ k ih =>
    rw [drawRows_succ, memRead_inside (show a < Config.memSize by simp only [Config.memSize]; omega)]
    simp only
    by_cases hy : 32 ≤ y
    · rw [if_pos hy]
      refine ⟨p, rfl, fun x' y' => (if_neg (by omega)).symm, .inr rfl, ?_, fun _ => rfl⟩
      rintro ⟨c, r, -, -, hr, -⟩
      omega
    rw [if_neg hy]
    have hy' : y < 32 := by omega
    obtain ⟨q, hq, hpix, hvf, hset, hkeep⟩ :=
      ih (a := a + 1) (y := y + 1) (p := drawBits (m.read a) y 8 x0 p) (by omega)
    have hlater : ∀ x' y', y + 1 ≤ y' →
        pixel (drawBits (m.read a) y 8 x0 p).disp x' y' = pixel p.disp x' y' := fun x' y' h' => by
      rw [drawBits_pixel hy', if_neg (by omega)]
    refine ⟨q, hq, fun x' y' => ?_, ?_, ?_, ?_⟩
    · have hrow := drawBits_pixel (b := m.read a) hy' 8 x0 p x' y'
      by_cases e : y' = y
      · subst e
        rw [hpix, if_neg (by omega), hrow, Nat.sub_self]
        by_cases hx : x0 ≤ x' ∧ x' < x0 + 8 ∧ x' < 64
        · rw [if_pos ⟨rfl, hx⟩, if_pos ⟨hx, by omega⟩]
          rfl
        · rw [if_neg (fun c => hx c.2), if_neg (fun c => hx c.1)]
      · rw [if_neg (fun c => e c.1)] at hrow
        rw [hpix, hrow]
        by_cases hw : (x0 ≤ x' ∧ x' < x0 + 8 ∧ x' < 64) ∧ y + 1 ≤ y' ∧ y' < y + 1 + min k (32 - (y + 1))
        · rw [if_pos hw, if_pos (by omega), show a + 1 + (y' - (y + 1)) = a + (y' - y) by omega]
        · rw [if_neg hw, if_neg (by omega)]
    all_goals rcases drawBits_vf (b := m.read a) hy' 8 x0 p with ⟨⟨c0, hc0, hx0, hb0, hp0⟩, hv⟩ | ⟨hno, hv⟩
    · rcases hvf with e | e
      · exact .inl e
      · exact .inl (e.trans hv)
    · rcases hvf with e | e
      · exact .inl e
      · exact .inr (e.trans hv)
    · intro _
      rcases hvf with e | e
      · exact e
      · exact e.trans hv
    · rintro ⟨c, r, hc, hx, hr, hb, hp⟩
      cases r with
      | zero => exact absurd ⟨c, hc, hx, hb, hp⟩ hno
      | succ r =>
        refine hset ⟨c, r, hc, hx, by omega, ?_, ?_⟩
        · rwa [show a + 1 + r = a + (r + 1) by omega]
        · rw [hlater _ _ (by omega), show y + 1 + r = y + (r + 1) by omega]
          exact hp
    · intro hnot
      exact absurd ⟨c0, 0, hc0, hx0, by omega, hb0, hp0⟩ hnot
    · intro hnot
      rw [hkeep, hv]
      rintro ⟨c, r, hc, hx, hr, hb, hp⟩
      refine hnot ⟨c, r + 1, hc, hx, by omega, ?_, ?_⟩
      · rwa [show a + (r + 1) = a + 1 + r by omega]
      · rw [hlater _ _ (by omega), show y + 1 + r = y + (r + 1) by omega] at hp
        exact hp

end Sys2Proof.Machine
end

