-- ==== Sys2Proof/Laws/Exec.lean ====
section
/-! SUPPORT. What each instruction answers, in the named operations: one equation per instruction, and the two cases of
DXYN. -/

namespace Sys2Proof.Machine

variable (s : State)

theorem exec_cls : exec .cls s = .next (writeDisp s displayOff) := rfl
theorem exec_sys (nnn : Addr12) : exec (.sys nnn) s = .next (raiseUnsupported (formatNNN 0x0#4 nnn) s) := rfl
theorem exec_jp (nnn : Addr12) : exec (.jp nnn) s = .next (writePc s (zextNNN nnn)) := rfl
theorem exec_ldImm (x : RegIdx) (nn : Byte) : exec (.ldImm x nn) s = .next (writeV s x nn) := rfl
theorem exec_addImm (x : RegIdx) (nn : Byte) : exec (.addImm x nn) s = .next (writeV s x (readV s x + nn)) := rfl
theorem exec_ldI (nnn : Addr12) : exec (.ldI nnn) s = .next (writeI s (zextNNN nnn)) := rfl
theorem exec_unsupported2 (nnn : Addr12) : exec (.unsupported2 nnn) s = .next (raiseUnsupported (formatNNN 0x2#4 nnn) s) :=
  rfl
theorem exec_unsupported3 (nnn : Addr12) : exec (.unsupported3 nnn) s = .next (raiseUnsupported (formatNNN 0x3#4 nnn) s) :=
  rfl
theorem exec_unsupported4 (nnn : Addr12) : exec (.unsupported4 nnn) s = .next (raiseUnsupported (formatNNN 0x4#4 nnn) s) :=
  rfl
theorem exec_unsupported5 (nnn : Addr12) : exec (.unsupported5 nnn) s = .next (raiseUnsupported (formatNNN 0x5#4 nnn) s) :=
  rfl
theorem exec_unsupported8 (nnn : Addr12) : exec (.unsupported8 nnn) s = .next (raiseUnsupported (formatNNN 0x8#4 nnn) s) :=
  rfl
theorem exec_unsupported9 (nnn : Addr12) : exec (.unsupported9 nnn) s = .next (raiseUnsupported (formatNNN 0x9#4 nnn) s) :=
  rfl
theorem exec_unsupportedB (nnn : Addr12) : exec (.unsupportedB nnn) s = .next (raiseUnsupported (formatNNN 0xB#4 nnn) s) :=
  rfl
theorem exec_unsupportedC (nnn : Addr12) : exec (.unsupportedC nnn) s = .next (raiseUnsupported (formatNNN 0xC#4 nnn) s) :=
  rfl
theorem exec_unsupportedE (nnn : Addr12) : exec (.unsupportedE nnn) s = .next (raiseUnsupported (formatNNN 0xE#4 nnn) s) :=
  rfl
theorem exec_unsupportedF (nnn : Addr12) : exec (.unsupportedF nnn) s = .next (raiseUnsupported (formatNNN 0xF#4 nnn) s) :=
  rfl

/-- DXYN answers a next state: drawn and notified, or with the fault of a row address latched (R110, R116). -/
theorem exec_drw (x y : RegIdx) (n : BitVec 4) :
    (∃ p, drawRows s.mem (anchorX s x) (rowCount n) s.i.toNat (anchorY s y) ⟨s.disp, vfClear⟩ = .ok p ∧
      exec (.drw x y n) s = .next (notifyRender (writeV (writeDisp s p.disp) regVF p.vf))) ∨
    (∃ f, drawRows s.mem (anchorX s x) (rowCount n) s.i.toNat (anchorY s y) ⟨s.disp, vfClear⟩ = .error f ∧
      exec (.drw x y n) s = .next (raise f (leaveDrawOpen s))) := by
  cases h : drawRows s.mem (anchorX s x) (rowCount n) s.i.toNat (anchorY s y) ⟨s.disp, vfClear⟩ with
  | ok p => exact .inl ⟨p, rfl, by simp only [exec, execDrw, h]⟩
  | error f => exact .inr ⟨f, rfl, by simp only [exec, execDrw, h]⟩

/-- The sub-cause of a word of format NNN is decided by its OP (R132). -/
theorem subCause_formatNNN (op : BitVec 4) (nnn : Addr12) :
    subCause (formatNNN op nnn) = if op = 0x0#4 then .legacy else .other := by
  have h : BitVec.extractLsb' 12 4 (formatNNN op nnn) = op := by
    apply BitVec.eq_of_toNat_eq
    have h1 := op.isLt
    have h2 := nnn.isLt
    rw [BitVec.extractLsb'_toNat, formatNNN]
    change (op.toNat <<< 12 ||| nnn.toNat) >>> 12 % 2 ^ 4 = op.toNat
    rw [← Nat.shiftLeft_add_eq_or_of_lt h2, Nat.shiftLeft_eq, Nat.shiftRight_eq_div_pow]
    omega
  rw [subCause, h]

end Sys2Proof.Machine
end

