-- ==== Sys2Proof/Laws/PerInstr.lean ====
section
/-! SUPPORT. Statements made per instruction. TableRow: the word of an instruction has the fixed bits of its row of the
opcode table (30_encoding.md R65), so no encoding strays into another row's match. -/

namespace Sys2Proof.Laws.TableRow

/-- The encoded word, under the row's mask, is the row's match. -/
def Statement (i : Instr) : Prop := encode i &&& i.row.mask = i.row.pattern

/-- OP above any 12 bits, under the mask of OP, is OP above zeros. -/
theorem op_under_mask (op : BitVec 4) (low : BitVec 12) :
    (op ++ low : BitVec (4 + 12)) &&& (0xF#4 ++ 0x000#12) = op ++ 0x000#12 := by
  rw [BitVec.and_append]
  congr 1
  · exact BitVec.and_allOnes
  · exact BitVec.and_zero

theorem cls : Statement .cls := rfl

theorem sys (nnn : Addr12) : Statement (.sys nnn) := op_under_mask _ _

theorem jp (nnn : Addr12) : Statement (.jp nnn) := op_under_mask _ _

theorem ldImm (x : RegIdx) (nn : Byte) : Statement (.ldImm x nn) := op_under_mask _ _

theorem addImm (x : RegIdx) (nn : Byte) : Statement (.addImm x nn) := op_under_mask _ _

theorem ldI (nnn : Addr12) : Statement (.ldI nnn) := op_under_mask _ _

theorem drw (x y : RegIdx) (n : BitVec 4) : Statement (.drw x y n) := op_under_mask _ _

theorem unsupported2 (nnn : Addr12) : Statement (.unsupported2 nnn) := op_under_mask _ _

theorem unsupported3 (nnn : Addr12) : Statement (.unsupported3 nnn) := op_under_mask _ _

theorem unsupported4 (nnn : Addr12) : Statement (.unsupported4 nnn) := op_under_mask _ _

theorem unsupported5 (nnn : Addr12) : Statement (.unsupported5 nnn) := op_under_mask _ _

theorem unsupported8 (nnn : Addr12) : Statement (.unsupported8 nnn) := op_under_mask _ _

theorem unsupported9 (nnn : Addr12) : Statement (.unsupported9 nnn) := op_under_mask _ _

theorem unsupportedB (nnn : Addr12) : Statement (.unsupportedB nnn) := op_under_mask _ _

theorem unsupportedC (nnn : Addr12) : Statement (.unsupportedC nnn) := op_under_mask _ _

theorem unsupportedE (nnn : Addr12) : Statement (.unsupportedE nnn) := op_under_mask _ _

theorem unsupportedF (nnn : Addr12) : Statement (.unsupportedF nnn) := op_under_mask _ _

end Sys2Proof.Laws.TableRow
end

