-- ==== Sys2Proof/Laws/Transactions.lean ====
section
/-! SUPPORT. The host operations: the cases of `loadRom`, and the memory that construction leaves. -/

namespace Sys2Proof.Machine

/-- Everything `loadRom` can do (R162, R163). -/
theorem loadRom_cases (bytes : List Byte) (s : State) :
    (3584 < bytes.length ∧
      loadRom bytes s = (latchFirst (.loadOverflow bytes.length) s, .faulted (.loadOverflow bytes.length))) ∨
    (bytes.length ≤ 3584 ∧
      loadRom bytes s =
        ({ s with mem := s.mem.writeBytes 0x200 bytes, stage := stageAfterLoad s.stage }, .success)) := by
  by_cases h : 3584 < bytes.length
  · exact .inl ⟨h, if_pos h⟩
  · exact .inr ⟨by omega, if_neg h⟩

/-- The latch keeps the first fault and touches nothing else. -/
theorem latchFirst_eq (f : Fault) (s : State) :
    latchFirst f s = { s with fault := some (s.fault.getD f) } := by
  obtain ⟨mem, v, i, pc, stack, dt, st, disp, stage, fault, renderCount, freeCount⟩ := s
  cases fault <;> rfl

/-- A core that is not called keeps all its state (R148). -/
@[simp] theorem runTransactions_nil (s : State) : runTransactions [] s = s := rfl

/-- Host calls run one at a time, the first first (R168). -/
@[simp] theorem runTransactions_cons (t : Transaction) (rest : List Transaction) (s : State) :
    runTransactions (t :: rest) s = runTransactions rest (transact t s).1 := rfl

/-- A font table of at most 512 bytes is accepted (R160). -/
theorem construct_ok {bytes : List Byte} (h : bytes.length ≤ 512) :
    construct bytes = .next (constructedWith (fontMemory bytes)) := by
  rw [construct, if_neg (Nat.not_lt.mpr h)]

/-- A longer font table is refused (R160, D11). -/
theorem construct_tooLong {bytes : List Byte} (h : 512 < bytes.length) :
    construct bytes = .refused (.fontTooLong bytes.length) := by
  rw [construct, if_pos h]

/-- The machine's own FONT is never too long. -/
theorem font_length : Config.font.length ≤ 512 := by
  have := Config.fontLen.isLt
  simp only [Config.font, List.length_map, List.length_range]
  omega

theorem fontMemory_wf (bytes : List Byte) : (fontMemory bytes).wf = true := by
  unfold fontMemory
  exact Memory.wf_writeBytes Memory.wf_nil

/-- Memory after construction: the font, then zeros (R160). -/
theorem fontMemory_read (bytes : List Byte) (h : bytes.length ≤ 512) (a : Nat) :
    (fontMemory bytes).read a = bytes.getD a 0x00#8 := by
  unfold fontMemory
  by_cases ha : a < Config.romBase
  · have := Memory.read_writeBytes_inside (a := 0) (k := a)
      (bytes := (List.range Config.romBase).map (fun k => bytes.getD k 0x00#8)) Memory.wf_nil
      (by simpa using ha) (by simp [Config.romBase, Config.memSize])
    rw [Nat.zero_add] at this
    rw [this]
    simp
  · rw [Memory.read_writeBytes_outside Memory.wf_nil (.inr (by simpa using ha))]
    have ha' : 512 ≤ a := by simpa [Config.romBase] using ha
    rw [Memory.read_nil, Memory.unlisted, if_pos (by simpa using ha), List.getD_eq_default _ _ (by omega)]

/-- The machine's own FONT as a byte sequence reads as FONT padded with zeros. -/
theorem font_getD (a : Nat) : Config.font.getD a 0x00#8 = fontPadded a := by
  unfold Config.font fontPadded
  by_cases h : a < Config.fontLen.val
  · simp [h]
  · rw [if_neg h, List.getD_eq_default _ _ (by simpa using h)]

/-- Constructing with the machine's own FONT lists nothing: every byte is what an unlisted address reads as. -/
theorem fontMemory_font : fontMemory Config.font = [] := by
  refine Memory.ext (fontMemory_wf _) Memory.wf_nil (fun a => ?_)
  rw [fontMemory_read _ font_length, font_getD, Memory.read_nil, Memory.unlisted]
  split
  · next h =>
    have := Config.fontLen.isLt
    have h' : 512 ≤ a := h
    exact if_neg (by omega)
  · rfl

end Sys2Proof.Machine
end

