-- ==== Sys2Proof/Tests/Slice0.lean ====
section
/-! SUPPORT. The model's own tests: the well-formedness smoke, one word per row of the opcode table written out bit by bit,
single steps with the expected results of 95_test_vectors.md, and a witness for the hypotheses of every statement. -/

namespace Sys2Proof.Machine

/-! ### Helpers -/

/-- The reset state with a word where the next step fetches (log entry 21). -/
def loaded (w : Nat) : State := State.reset.withFetchWord 16 w

/-- The reset state at another PC, with a word there. -/
def loadedAt (pc : Word) (w : Nat) : State := { State.reset with pc := pc }.withFetchWord 16 w

/-- A check of the next state of a step. -/
def stepGives (s : State) (p : State → Bool) : Bool :=
  match step s with
  | .next t => p t
  | .fault _ => false
  | .refused _ => false

/-- A check of a call that raises a fault: the step is that fault, and the state the call leaves. -/
def callFaults (s : State) (f : Fault) (p : State → Bool) : Bool :=
  let after := (executeCycle s).1
  (match step s with
    | .next _ => false
    | .fault g => g == f
    | .refused _ => false) && after.fault == some f && p after

/-- A check of the next state of an instruction's effect. -/
def execGives (i : Instr) (s : State) (p : State → Bool) : Bool :=
  match exec i s with
  | .next t => p t
  | .fault _ => false
  | .refused _ => false

/-- The next state of an instruction's effect (the state itself where there is none). -/
def execNext (i : Instr) (s : State) : State :=
  match exec i s with
  | .next t => t
  | .fault _ => s
  | .refused _ => s

/-- The next state of a step (the state itself where there is none). -/
def stepNext (s : State) : State :=
  match step s with
  | .next t => t
  | .fault _ => s
  | .refused _ => s

/-- A display buffer with the listed pixels on. -/
def lit : List (Nat × Nat) → Display
  | [] => displayOff
  | (x, y) :: rest => setPixel (lit rest) x y true

/-- The state before a draw: sprite bytes at I, the anchor registers V0 and V1, the pixels that are on. -/
def canvas (i : Word) (bytes : List Byte) (v0 v1 : Byte) (on : List (Nat × Nat)) : State :=
  writeV (writeV { State.reset with i := i, mem := Memory.writeBytes [] i.toNat bytes, disp := lit on } 0 v0) 1 v1

/-! ### Well-formedness: an ill-formed term is refused -/

theorem test_wf_refuses_sys_with_the_word_of_cls : Instr.wf (.sys 0x0E0#12) = false := by decide
theorem test_wf_accepts_sys : Instr.wf (.sys 0x0EE#12) = true := by decide

/-! ### Decoding: one word per row, its bits written out from the formats of 30_encoding.md R62, R65 -/

theorem test_decode_cls : decodeWord 0b0000000011100000#16 = .cls := by decide
theorem test_decode_sys : decodeWord 0b0000000011101110#16 = .sys 0b000011101110#12 := by decide
theorem test_decode_jp : decodeWord 0b0001001000000110#16 = .jp 0b001000000110#12 := by decide
theorem test_decode_ldImm : decodeWord 0b0110101000111100#16 = .ldImm 0b1010 0b00111100#8 := by decide
theorem test_decode_addImm : decodeWord 0b0111111100000001#16 = .addImm 0b1111 0b00000001#8 := by decide
theorem test_decode_ldI : decodeWord 0b1010001000001100#16 = .ldI 0b001000001100#12 := by decide
theorem test_decode_drw : decodeWord 0b1101101000010010#16 = .drw 0b1010 0b0001 0b0010#4 := by decide
theorem test_decode_2 : decodeWord 0b0010001000000001#16 = .unsupported2 0b001000000001#12 := by decide
theorem test_decode_3 : decodeWord 0b0011101000000001#16 = .unsupported3 0b101000000001#12 := by decide
theorem test_decode_4 : decodeWord 0b0100101000000001#16 = .unsupported4 0b101000000001#12 := by decide
theorem test_decode_5 : decodeWord 0b0101101010110000#16 = .unsupported5 0b101010110000#12 := by decide
theorem test_decode_8 : decodeWord 0b1000101010110100#16 = .unsupported8 0b101010110100#12 := by decide
theorem test_decode_9 : decodeWord 0b1001101010110000#16 = .unsupported9 0b101010110000#12 := by decide
theorem test_decode_B : decodeWord 0b1011000100100011#16 = .unsupportedB 0b000100100011#12 := by decide
theorem test_decode_C : decodeWord 0b1100000011111111#16 = .unsupportedC 0b000011111111#12 := by decide
theorem test_decode_E : decodeWord 0b1110000010011110#16 = .unsupportedE 0b000010011110#12 := by decide
theorem test_decode_F : decodeWord 0b1111000000001010#16 = .unsupportedF 0b000000001010#12 := by decide
theorem test_decode_rejects_half_a_word : decode [0x12#8] = .error .truncated := rfl

/-! ### Single steps: 95_test_vectors.md -/

/-- Z1: CLS turns all off, leaves VF and RENDER_COUNT. -/
theorem test_cls_Z1 :
    stepGives (writeV { loaded 0x00E0 with disp := lit [(0, 0), (63, 31), (5, 5)], renderCount := 3 } 15 0x01#8)
      (fun t => t.pc == 0x202#16 && !pixel t.disp 0 0 && !pixel t.disp 63 31 && !pixel t.disp 5 5 &&
        readV t 15 == 0x01#8 && t.renderCount == 3) = true := by decide

/-- Z3: 00EE faults with PC after it. -/
theorem test_sys_Z3 :
    callFaults (loadedAt 0x20C#16 0x00EE) (.unsupportedInstruction 0x00EE#16 .legacy)
      (fun t => t.pc == 0x20E#16 && t.stack == []) = true := by decide

/-- H9, P7: after reset with no ROM the first step fetches 0x0000 and faults. -/
theorem test_empty_rom_P7 :
    callFaults State.reset (.unsupportedInstruction 0x0000#16 .legacy) (fun t => t.pc == 0x202#16) = true := by decide

/-- J3: an odd target is legal. -/
theorem test_jp_J3 : stepGives (loaded 0x1203) (fun t => t.pc == 0x203#16 && t.fault == none) = true := by decide

/-- J5: JP 0xFFF faults at the next fetch, with PC kept. -/
theorem test_jp_J5 : callFaults (loadedAt 0xFFF#16 0x6000) (.memoryOutOfBounds 0x1000)
    (fun t => t.pc == 0xFFF#16) = true := by decide

/-- L2: VF as a plain destination. -/
theorem test_ldImm_L2 : stepGives (writeV (loaded 0x6F00) 15 0x01#8) (fun t => readV t 15 == 0x00#8) = true := by decide

/-- A1: 250 + 10 = 4, VF unchanged. -/
theorem test_addImm_A1 :
    stepGives (writeV (writeV (loaded 0x700A) 0 0xFA#8) 15 0x55#8)
      (fun t => readV t 0 == 0x04#8 && readV t 15 == 0x55#8) = true := by decide

/-- A8: VF as a plain source and destination. -/
theorem test_addImm_A8 : stepGives (writeV (loaded 0x7FFF) 15 0x05#8) (fun t => readV t 15 == 0x04#8) = true := by decide

/-- I3: bits 15 to 12 of I become 0. -/
theorem test_ldI_I3 : stepGives { loaded 0xAFFF with i := 0xFFFF#16 } (fun t => t.i == 0x0FFF#16) = true := by decide

/-- M1: the last word of memory executes and PC goes to 0x1000. -/
theorem test_cycle_M1 : stepGives (loadedAt 0xFFE#16 0x6001) (fun t => readV t 0 == 0x01#8 && t.pc == 0x1000#16 &&
    t.fault == none) = true := by decide

/-- M2: the next fetch faults and does not advance PC. -/
theorem test_cycle_M2 : callFaults { State.reset with pc := 0x1000#16 } (.memoryOutOfBounds 0x1000)
    (fun t => t.pc == 0x1000#16) = true := by decide

/-- U1: a call in canonical CHIP-8, here a fault. -/
theorem test_unsupported_U1 : callFaults (loaded 0x2200) (.unsupportedInstruction 0x2200#16 .other)
    (fun t => t.pc == 0x202#16 && t.stack == []) = true := by decide

/-- D8: a collision turns the pixel off, the other bit turns one on. -/
theorem test_drw_D8 :
    execGives (.drw 0 1 1#4) (canvas 0x300#16 [0xC0#8] 0 0 [(0, 0)])
      (fun t => !pixel t.disp 0 0 && pixel t.disp 1 0 && readV t 15 == 0x01#8 && t.renderCount == 1) = true := by decide

/-- D6: rows below the bottom edge are clipped, nothing at the top. -/
theorem test_drw_D6 :
    execGives (.drw 0 1 4#4) (canvas 0x300#16 [0xFF#8, 0xFF#8, 0xFF#8, 0xFF#8] 0 31 [])
      (fun t => pixel t.disp 0 31 && pixel t.disp 7 31 && !pixel t.disp 8 31 && !pixel t.disp 0 0 &&
        readV t 15 == 0x00#8) = true := by decide

/-- Every draw right after reset runs, its sprite taken from the FONT region, whose bytes are open. -/
theorem test_drw_from_the_font : stepGives (loaded 0xDEFF) (fun t => t.renderCount == 1) = true := by decide

/-- H5: an oversized ROM is reported and latched. -/
theorem test_loadRom_H5 :
    (loadRom (List.replicate 3585 0x00#8) State.reset).2 = .faulted (.loadOverflow 3585) := by
  rw [loadRom, if_pos (by rw [List.length_replicate]; decide), List.length_replicate]

/-- H7: a second, shorter ROM clears nothing. -/
theorem test_loadRom_H7 :
    (loadRom [0x11#8, 0x22#8] (loadRom [0xAA#8, 0xBB#8, 0xCC#8, 0xDD#8] State.reset).1).1.mem =
      [(0x200, 0x11#8), (0x201, 0x22#8), (0x202, 0xCC#8), (0x203, 0xDD#8)] := by decide

/-- H3: reset keeps the general registers and the count. -/
theorem test_reset_H3 :
    (let t := warmReset (writeV { State.reset with pc := 0x2F0#16, i := 0x0345#16, disp := lit [(1, 1)], renderCount := 7 } 0 0x11#8)
     t.pc == 0x200#16 && t.i == 0#16 && !pixel t.disp 1 1 && readV t 0 == 0x11#8 && t.renderCount == 7) = true := by
  decide

/-! ### Witnesses: for each statement with hypotheses, a state and operands that meet them together -/

theorem witness_DecodeOfEncode : Instr.wf (.sys 0x0EE#12) = true ∧ Instr.wf (.drw 15 15 0#4) = true := by decide

theorem witness_FetchIsBigEndian :
    State.reset.pc.toNat ≤ 0xFFE ∧ (loadedAt 0xFFE#16 0x6001).pc.toNat ≤ 0xFFE := by decide

theorem witness_ReadsOutsideMemory : 0xFFF ≤ 0xFFF ∧ 0xFFF < 0x1000 := by decide

theorem witness_StepRuns :
    (Executes (loaded 0x6A3C) ∧ (loaded 0x6A3C).pc.toNat ≤ 0xFFE ∧
      decode [(loaded 0x6A3C).mem.read 0x200, (loaded 0x6A3C).mem.read 0x201] = .ok (.ldImm 10 0x3C#8, []) ∧
      (execNext (.ldImm 10 0x3C#8) (loaded 0x6A3C)).fault = none) ∧
    (Executes (loaded 0x2200) ∧
      decode [(loaded 0x2200).mem.read 0x200, (loaded 0x2200).mem.read 0x201] = .ok (.unsupported2 0x200#12, []) ∧
      (execNext (.unsupported2 0x200#12) (loaded 0x2200)).fault =
        some (.unsupportedInstruction 0x2200#16 .other)) :=
  ⟨⟨⟨rfl, rfl⟩, by decide, rfl, rfl⟩, ⟨rfl, rfl⟩, rfl, rfl⟩

theorem witness_CycleOrder :
    (constructedWith []).stage ≠ .ready ∧
    (raise (.memoryOutOfBounds 0x1000) State.reset).stage = .ready ∧
    (raise (.memoryOutOfBounds 0x1000) State.reset).fault = some (.memoryOutOfBounds 0x1000) ∧
    (Executes { State.reset with pc := 0x1000#16 } ∧ 0x1000 ≤ (0x1000#16).toNat) ∧
    (Executes { State.reset with pc := 0xFFF#16 } ∧ (0xFFF#16).toNat = 0xFFF) ∧
    (Executes (loadedAt 0xFFE#16 0x6001) ∧ (0xFFE#16).toNat ≤ 0xFFE) :=
  ⟨by decide, rfl, rfl, ⟨⟨rfl, rfl⟩, by decide⟩, ⟨⟨rfl, rfl⟩, rfl⟩, ⟨⟨rfl, rfl⟩, by decide⟩⟩

theorem witness_PcAdvances :
    (Executes (loaded 0x1206) ∧ Fetches (loaded 0x1206) 0x1206#16 ∧ decodeWord 0x1206#16 = .jp 0x206#12) ∧
    (Executes (loadedAt 0xFFE#16 0x6001) ∧ Fetches (loadedAt 0xFFE#16 0x6001) 0x6001#16 ∧
      ∀ nnn, decodeWord 0x6001#16 ≠ .jp nnn) :=
  ⟨⟨⟨rfl, rfl⟩, rfl, rfl⟩, ⟨rfl, rfl⟩, rfl, fun nnn h => by
    rw [show decodeWord 0x6001#16 = .ldImm 0 0x01#8 from rfl] at h; cases h⟩

theorem witness_LatchedFault :
    (executeCycle State.reset).1.stage = .ready ∧
    (executeCycle State.reset).1.fault = some (.unsupportedInstruction 0x0000#16 .legacy) := ⟨rfl, rfl⟩

theorem witness_CallBeforeReset : (constructedWith []).stage ≠ .ready := by decide

theorem witness_EveryExecutingCoreSteps : Executes State.reset := ⟨rfl, rfl⟩

theorem witness_FaultEntry :
    State.reset.fault = none ∧ step State.reset = .fault (.unsupportedInstruction 0x0000#16 .legacy) ∧
    (∀ w x y n, Fetches State.reset w → decodeWord w ≠ .drw x y n) :=
  ⟨rfl, rfl, fun w x y n h => by
    have h0 : fetch16 State.reset.mem State.reset.pc.toNat = .ok 0x0000#16 := rfl
    rw [Fetches, h0] at h
    cases h
    rw [show decodeWord 0x0000#16 = .sys 0x000#12 from rfl]
    simp⟩

theorem witness_FaultEntryInsideDraw :
    { loaded 0xD012 with i := 0x1000#16 }.fault = none ∧
    step { loaded 0xD012 with i := 0x1000#16 } = .fault (.memoryOutOfBounds 0x1000) := ⟨rfl, rfl⟩

/-- One or more steps that end in a next state, and a step that answers a fault. -/
theorem witness_FaultedStateNeverEndsARun :
    Host.Core.run core 1 (loaded 0x6A3C) = .next (stepNext (loaded 0x6A3C)) ∧
    step State.reset = .fault (.unsupportedInstruction 0x0000#16 .legacy) := ⟨rfl, rfl⟩

theorem witness_Unsupported :
    Executes (loaded 0x2200) ∧ Fetches (loaded 0x2200) 0x2200#16 ∧ (0x2200#16).extractLsb' 12 4 = 0x2#4 ∧
    Executes State.reset ∧ Fetches State.reset 0x0000#16 := ⟨⟨rfl, rfl⟩, rfl, rfl, ⟨rfl, rfl⟩, rfl⟩

theorem witness_ClearScreen : Executes (loaded 0x00E0) ∧ Fetches (loaded 0x00E0) 0x00E0#16 := ⟨⟨rfl, rfl⟩, rfl⟩

theorem witness_Sys :
    0x0EE#12 ≠ 0x0E0#12 ∧ Executes (loaded 0x00EE) ∧ Fetches (loaded 0x00EE) (0x0#4 ++ 0x0EE#12) :=
  ⟨by decide, ⟨rfl, rfl⟩, rfl⟩

theorem witness_Jump :
    Executes (loaded 0x1206) ∧ Fetches (loaded 0x1206) (0x1#4 ++ 0x206#12) := ⟨⟨rfl, rfl⟩, rfl⟩

theorem witness_JumpToTheLastByte : Executes (loaded 0x1FFF) ∧ Fetches (loaded 0x1FFF) 0x1FFF#16 := ⟨⟨rfl, rfl⟩, rfl⟩

theorem witness_LoadImmediate :
    Executes (loaded 0x6F3C) ∧ Fetches (loaded 0x6F3C) (0x6#4 ++ (BitVec.ofFin (w := 4) 15 ++ 0x3C#8)) ∧
    (0 : RegIdx) ≠ 15 := ⟨⟨rfl, rfl⟩, rfl, by decide⟩

theorem witness_AddImmediate :
    Executes (loaded 0x700A) ∧ Fetches (loaded 0x700A) (0x7#4 ++ (BitVec.ofFin (w := 4) 0 ++ 0x0A#8)) ∧
    (15 : RegIdx) ≠ 0 := ⟨⟨rfl, rfl⟩, rfl, by decide⟩

theorem witness_LoadIndex :
    Executes (loaded 0xA20C) ∧ Fetches (loaded 0xA20C) (0xA#4 ++ 0x20C#12) := ⟨⟨rfl, rfl⟩, rfl⟩

theorem witness_DrawFromTheLastByte :
    { loaded 0xD012 with i := 0xFFF#16 }.i = 0xFFF#16 ∧ 2 ≤ (2#4).toNat ∧
    Executes { loaded 0xD012 with i := 0xFFF#16 } ∧
    Fetches { loaded 0xD012 with i := 0xFFF#16 }
      (0xD#4 ++ (BitVec.ofFin (w := 4) 0 ++ (BitVec.ofFin (w := 4) 1 ++ 2#4))) :=
  ⟨rfl, by decide, ⟨rfl, rfl⟩, rfl⟩

theorem witness_UnsupportedFamilies :
    (0xF#4, Instr.unsupportedF 0x00A#12) ∈ [(0xE#4, Instr.unsupportedE 0x00A#12), (0xF#4, .unsupportedF 0x00A#12)] ∧
    Executes (loaded 0xF00A) ∧ Fetches (loaded 0xF00A) (0xF#4 ++ 0x00A#12) := ⟨by decide, ⟨rfl, rfl⟩, rfl⟩

/-- D8's start: rows in memory, a pixel inside the window under a sprite bit 1 and on, and a pixel outside it. -/
theorem witness_DrawClosedForm_collision :
    RowsInMemory (canvas 0x300#16 [0xC0#8] 0 0 [(0, 0)]).i 0 1 ∧ InWindow 0 0 1 0 0 ∧
    spriteBit (canvas 0x300#16 [0xC0#8] 0 0 [(0, 0)]).mem 0x300#16 0 0 = true ∧
    pixel (canvas 0x300#16 [0xC0#8] 0 0 [(0, 0)]).disp 0 0 = true ∧ ¬ InWindow 0 0 1 8 0 := by decide

/-- D15: the last byte of memory is readable; and no row at all, from any I. With every pixel off there is no collision. -/
theorem witness_DrawClosedForm_boundary :
    RowsInMemory 0xFFF#16 31 1 ∧ RowsInMemory 0xFFFF#16 31 0 ∧
    ¬ ∃ px py, InWindow 0 31 1 px py ∧ spriteBit State.reset.mem 0xFFF#16 (py - 31) (px - 0) = true ∧
      pixel State.reset.disp px py = true := by
  refine ⟨by decide, by decide, ?_⟩
  rintro ⟨px, py, -, -, h⟩
  have hoff : pixel State.reset.disp px py = false := by
    unfold pixel State.reset displayOff
    split <;> simp
  rw [hoff] at h
  cases h

/-- D16 and D17: the first clipped row is read outside memory, and a drawn row is. -/
theorem witness_DrawOutsideMemory :
    ¬ RowsInMemory 0xFFF#16 31 2 ∧ ¬ RowsInMemory 0xFFE#16 0 3 ∧
    Executes { loaded 0xD013 with i := 0xFFE#16 } ∧
    Fetches { loaded 0xD013 with i := 0xFFE#16 }
      (0xD#4 ++ (BitVec.ofFin (w := 4) 0 ++ (BitVec.ofFin (w := 4) 1 ++ 3#4))) ∧
    ¬ RowsInMemory { loaded 0xD013 with i := 0xFFE#16 }.i
      ((readV { loaded 0xD013 with i := 0xFFE#16 } 1).toNat % 32) (3#4).toNat :=
  ⟨by decide, by decide, ⟨rfl, rfl⟩, rfl, by decide⟩

theorem witness_DrawingTwice :
    (0 : RegIdx) ≠ regVF ∧ (1 : RegIdx) ≠ regVF ∧
    RowsInMemory 0x20C#16 ((readV (canvas 0x20C#16 [0xFF#8, 0xFF#8] 62 31 []) 1).toNat % 32) 2 := by decide

/-- With X = 15 the anchor is kept where the first draw leaves VF as it was, here 0x00. -/
theorem witness_DrawingTwice_VF :
    RowsInMemory 0x20C#16 ((readV (canvas 0x20C#16 [0xC0#8] 0 3 []) 1).toNat % 32) 1 ∧
    (readV (execNext (.drw 15 1 1#4) (canvas 0x20C#16 [0xC0#8] 0 3 [])) 15).toNat % 64 =
      (readV (canvas 0x20C#16 [0xC0#8] 0 3 []) 15).toNat % 64 := by decide

theorem witness_DrawRectangle :
    RowsInMemory 0x300#16 ((readV (canvas 0x300#16 [0x80#8] 0 0 []) 1).toNat % 32) 1 ∧
    pixel (execNext (.drw 0 1 1#4) (canvas 0x300#16 [0x80#8] 0 0 [])).disp 0 0 ≠
      pixel (canvas 0x300#16 [0x80#8] 0 0 []).disp 0 0 := by decide

/-- The hypothesis of the frames: an effect that answers a next state; and each inner condition. -/
theorem witness_Frames :
    exec (.ldImm 3 0x12#8) State.reset = .next (execNext (.ldImm 3 0x12#8) State.reset) ∧
    destV (.ldImm 3 0x12#8) ≠ some 4 ∧ (∀ nnn, Instr.ldImm 3 0x12#8 ≠ .ldI nnn) ∧
    (∀ nnn, Instr.ldImm 3 0x12#8 ≠ .jp nnn) ∧ Instr.ldImm 3 0x12#8 ≠ .cls ∧
    (∀ x y n, Instr.ldImm 3 0x12#8 ≠ .drw x y n) :=
  ⟨rfl, by decide, by simp, by simp, by simp, by simp⟩

/-- The draw's clause of the display frame, with and without a fault. -/
theorem witness_FrameOfDraw :
    exec (.drw 0 1 0#4) State.reset = .next (execNext (.drw 0 1 0#4) State.reset) ∧
    (execNext (.drw 0 1 0#4) State.reset).fault = none ∧
    exec (.drw 0 1 1#4) { State.reset with i := 0x1000#16 } =
      .next (execNext (.drw 0 1 1#4) { State.reset with i := 0x1000#16 }) ∧
    (execNext (.drw 0 1 1#4) { State.reset with i := 0x1000#16 }).fault ≠ none := ⟨rfl, rfl, rfl, by decide⟩

theorem witness_FiveInstructions :
    (Instr.jp 0x206#12 = .cls ∨ (∃ nnn, Instr.jp 0x206#12 = .jp nnn) ∨ (∃ x nn, Instr.jp 0x206#12 = .ldImm x nn) ∨
      (∃ x nn, Instr.jp 0x206#12 = .addImm x nn) ∨ (∃ nnn, Instr.jp 0x206#12 = .ldI nnn)) := .inr (.inl ⟨_, rfl⟩)

theorem witness_Construction :
    (List.replicate 512 0xF0#8).length ≤ 512 ∧ 512 < (List.replicate 513 0xF0#8).length := by
  simp only [List.length_replicate]
  decide

theorem witness_LoadRom :
    State.reset.mem.wf = true ∧ (List.replicate 3584 0x12#8).length ≤ 3584 ∧
    3583 < (List.replicate 3584 0x12#8).length ∧ 0x1FF < 0x200 := by
  simp only [List.length_replicate]
  decide

theorem witness_OversizedRom :
    3584 < (List.replicate 3585 0x12#8).length ∧ State.reset.fault = none ∧
    (raise (.loadOverflow 4000) State.reset).fault ≠ none := by
  simp only [List.length_replicate]
  decide

theorem witness_LoadedCode :
    State.reset.mem.wf = true ∧ [0x12#8, 0x06#8].length ≤ 3584 ∧ 0 + 1 < [0x12#8, 0x06#8].length ∧
    State.reset.pc.toNat = 0x200 + 0 := by decide

theorem witness_LoadAndReset : [0x12#8, 0x06#8].length ≤ 3584 := by decide

theorem witness_Invariant : Inv (loaded 0x6A3C) ∧ step (loaded 0x6A3C) = .next (stepNext (loaded 0x6A3C)) :=
  ⟨⟨rfl, by decide, fun _ => by decide, fun _ => rfl, fun a h => by
    have hm : (loaded 0x6A3C).mem = Memory.writeBytes [] 0x200 [0x6A#8, 0x3C#8] := rfl
    rw [hm, Memory.read_writeBytes_outside Memory.wf_nil (.inl h)]
    exact if_neg (by simpa using h)⟩, rfl⟩

theorem witness_HostCall :
    construct Config.font = .next (constructedWith (fontMemory Config.font)) ∧ Inv State.reset :=
  ⟨construct_ok font_length, rfl, by decide, fun _ => by decide, fun _ => rfl, fun a h => if_neg (by simpa using h)⟩

theorem witness_Reachable : Reachable (runTransactions [.loadRom [0x12#8, 0x06#8], .reset, .executeCycle]
    (constructedWith (fontMemory Config.font))) :=
  ⟨_, _, construct_ok font_length, rfl⟩

theorem witness_FaultFreeCycle :
    step (loaded 0x6A3C) = .next (stepNext (loaded 0x6A3C)) ∧
    step { loaded 0xD012 with i := 0xFFE#16 } = .next (stepNext { loaded 0xD012 with i := 0xFFE#16 }) ∧
    step State.reset = .fault (.unsupportedInstruction 0x0000#16 .legacy) := ⟨rfl, rfl, rfl⟩

theorem witness_SelfJump :
    Executes (loaded 0x1200) ∧ Fetches (loaded 0x1200) (0x1#4 ++ 0x200#12) ∧
    (loaded 0x1200).pc = (0x200#12).setWidth 16 := ⟨⟨rfl, rfl⟩, rfl, rfl⟩

end Sys2Proof.Machine
end

section
/-! The fetch (20_memory.md R44): the byte at the lower address is the more significant, and it holds the nibble that
selects the family. -/

namespace Sys2Proof.Machine

/-- The nibble that selects the family lies in the more significant byte alone (R44, R61). -/
theorem describeWord_append_op (hi lo : Byte) : (describeWord (hi ++ lo)).op = hi.extractLsb' 4 4 :=
  BitVec.extractLsb'_append_eq_of_le (by decide)

/-- Settles O6: at a PC up to 0xFFE the fetch answers the two bytes side by side, whose value and high nibble are those of
a concatenation. -/
theorem fetchIsBigEndian : Obligations.FetchIsBigEndian := fun s hpc =>
  ⟨s.mem.read s.pc.toNat ++ s.mem.read (s.pc.toNat + 1), fetch16_ok_iff.mpr ⟨hpc, rfl⟩, rfl, append_toNat _ _,
    describeWord_append_op _ _⟩

end Sys2Proof.Machine
end

section
/-! The six fields (30_encoding.md R61): each is a fixed mask and shift of the word, neighbouring fields concatenate to the
wider ones, and the two bytes hold them as nibbles. -/

namespace Sys2Proof

/-- A field read as a number: its bits kept by a mask in place, then shifted down to bit 0. -/
theorem field_toNat_masked (w : Word) (lo len : Nat) :
    (field w lo len).toNat = (w.toNat &&& (2 ^ len - 1) <<< lo) >>> lo := by
  rw [Nat.shiftRight_and_distrib, Nat.shiftLeft_shiftRight, Nat.and_two_pow_sub_one_eq_mod, field_toNat,
    Nat.shiftRight_eq_div_pow]

/-- Two neighbouring fields side by side are the one field over both. -/
theorem field_append_field (w : Word) (lo m n : Nat) : field w (lo + n) m ++ field w lo n = field w lo (m + n) :=
  BitVec.extractLsb'_append_extractLsb'_eq_extractLsb' rfl

/-- A field that lies in the more significant byte is the same field of that byte. -/
theorem field_append_of_le {hi lo : Byte} {start len : Nat} (h : 8 ≤ start) :
    field (hi ++ lo) start len = hi.extractLsb' (start - 8) len :=
  BitVec.extractLsb'_append_eq_of_le h

/-- A field that lies in the less significant byte is the same field of that byte. -/
theorem field_append_of_add_le {hi lo : Byte} {start len : Nat} (h : start + len ≤ 8) :
    field (hi ++ lo) start len = lo.extractLsb' start len :=
  BitVec.extractLsb'_append_eq_of_add_le h

/-- R61's table of masks and shifts. -/
theorem describeWord_masks (w : Word) :
    (describeWord w).op.toNat = (w.toNat &&& 0xF000) >>> 12 ∧ (describeWord w).x.val = (w.toNat &&& 0x0F00) >>> 8 ∧
    (describeWord w).y.val = (w.toNat &&& 0x00F0) >>> 4 ∧ (describeWord w).n.toNat = w.toNat &&& 0x000F ∧
    (describeWord w).nn.toNat = w.toNat &&& 0x00FF ∧ (describeWord w).nnn.toNat = w.toNat &&& 0x0FFF :=
  ⟨field_toNat_masked w 12 4, field_toNat_masked w 8 4, field_toNat_masked w 4 4, field_toNat_masked w 0 4,
    field_toNat_masked w 0 8, field_toNat_masked w 0 12⟩

/-- NN is Y then N. -/
theorem describeWord_nn (w : Word) :
    (describeWord w).nn = BitVec.ofFin (w := 4) (describeWord w).y ++ (describeWord w).n :=
  (field_append_field w 0 4 4).symm

/-- NNN is X then NN. -/
theorem describeWord_nnn (w : Word) :
    (describeWord w).nnn = BitVec.ofFin (w := 4) (describeWord w).x ++ (describeWord w).nn :=
  (field_append_field w 0 4 8).symm

/-- NNN is X, then Y, then N. -/
theorem describeWord_nnn_nibbles (w : Word) :
    (describeWord w).nnn =
      BitVec.ofFin (w := 4) (describeWord w).x ++ (BitVec.ofFin (w := 4) (describeWord w).y ++ (describeWord w).n) := by
  rw [describeWord_nnn, describeWord_nn]

/-- NN is the whole of the less significant byte. -/
theorem describe_nn (hi lo : Byte) : (describe hi lo).nn = lo := BitVec.extractLsb'_append_eq_right

/-- X is the lower nibble of the more significant byte. -/
theorem describe_x (hi lo : Byte) : BitVec.ofFin (w := 4) (describe hi lo).x = hi.extractLsb' 0 4 :=
  field_append_of_le (by decide)

/-- Where the six fields lie in the two bytes. -/
theorem describe_bytes (hi lo : Byte) :
    (describe hi lo).op = hi.extractLsb' 4 4 ∧ BitVec.ofFin (w := 4) (describe hi lo).x = hi.extractLsb' 0 4 ∧
    BitVec.ofFin (w := 4) (describe hi lo).y = lo.extractLsb' 4 4 ∧ (describe hi lo).n = lo.extractLsb' 0 4 ∧
    (describe hi lo).nn = lo ∧ (describe hi lo).nnn = hi.extractLsb' 0 4 ++ lo := by
  refine ⟨Machine.describeWord_append_op hi lo, describe_x hi lo, field_append_of_add_le (by decide),
    field_append_of_add_le (by decide), describe_nn hi lo, ?_⟩
  calc (describe hi lo).nnn
      = BitVec.ofFin (w := 4) (describe hi lo).x ++ (describe hi lo).nn := describeWord_nnn _
    _ = hi.extractLsb' 0 4 ++ lo := by rw [describe_x, describe_nn]

end Sys2Proof

namespace Sys2Proof.Machine

/-- Settles O1: the masks and the overlaps hold of every word, the byte positions of every two bytes, and D00's example is
computed. -/
theorem fieldsAreTheFixedMasks : Obligations.FieldsAreTheFixedMasks :=
  ⟨fun hi lo => ⟨rfl, describeWord_masks _, ⟨describeWord_nnn_nibbles _, describeWord_nnn _, describeWord_nn _⟩,
    describe_bytes hi lo⟩, by decide⟩

end Sys2Proof.Machine
end

section
/-! A call that fetches a word runs that word's instruction (40_cycle.md R80, R81). -/

namespace Sys2Proof.Machine

/-- A core that executes and fetches `w` runs the instruction of `w` on the state with PC advanced. -/
theorem runCycle_of_fetches {s : State} {w : Word} (hx : Executes s) (hw : Fetches s w) :
    runCycle s = exec (decodeWord w) (advancePc s) := by
  obtain ⟨hready, hnone⟩ := hx
  simp only [runCycle, cycle, hready, hnone, hw]

end Sys2Proof.Machine
end

section
/-! CLS (41_system_0xxx.md R90). -/

namespace Sys2Proof

/-- The one branch of the dispatch that answers CLS is the full-word test inside the zero-nibble family (R65). -/
theorem Descriptor.instr_eq_cls_iff (d : Descriptor) : d.instr = .cls ↔ d.op = 0x0#4 ∧ d.raw = 0x00E0#16 := by
  simp only [Descriptor.instr, ite_eq_iff, reduceCtorEq, and_false, or_false, and_true]

/-- CLS has one word: the test of the family adds nothing to the test of the full word. -/
theorem decodeWord_eq_cls_iff (w : Word) : decodeWord w = .cls ↔ w = 0x00E0#16 := by
  refine (Descriptor.instr_eq_cls_iff _).trans ⟨fun ⟨_, hraw⟩ => hraw, ?_⟩
  rintro rfl
  exact ⟨by decide, rfl⟩

end Sys2Proof

namespace Sys2Proof.Machine

/-- The whole cycle of CLS: no fault can be latched, since the core executes and CLS writes DISP alone. -/
theorem step_cls {s : State} (hx : Executes s) (hw : Fetches s 0x00E0#16) :
    step s = .next (writeDisp (advancePc s) displayOff) := by
  refine step_next_iff.mpr ⟨?_, hx.2⟩
  rw [runCycle_of_fetches hx hw, (decodeWord_eq_cls_iff _).mpr rfl, exec_cls]

/-- Settles O17: the word is computed, the decoder is `decodeWord_eq_cls_iff`, and both the effect and its repetition are
the one write of DISP. -/
theorem clearScreenTurnsEveryPixelOff : Obligations.ClearScreenTurnsEveryPixelOff :=
  ⟨by decide, decodeWord_eq_cls_iff, fun s => ⟨exec_cls s, exec_cls _⟩, pixel_displayOff, fun _ hx hw => step_cls hx hw⟩

end Sys2Proof.Machine
end

section
/-! JP (42_jump.md R95). -/

namespace Sys2Proof

/-- A word of the family 1NNN is a jump to its own NNN (R65). -/
theorem decodeWord_formatNNN_jp (nnn : Addr12) : decodeWord (formatNNN 0x1#4 nnn) = .jp nnn := by
  obtain ⟨hop, hnnn⟩ := formatNNN_fields 0x1#4 nnn
  rw [decodeWord_op1 hop, hnnn]

end Sys2Proof

namespace Sys2Proof.Machine

/-- Zero extension keeps the number, whatever the target (R63). -/
theorem zextNNN_toNat (nnn : Addr12) : (zextNNN nnn).toNat = nnn.toNat := BitVec.toNat_setWidth_of_le (by decide)

/-- The whole cycle of JP: the target replaces the advanced PC, and no fault can be latched, since the core executes and
the target is not checked. -/
theorem step_jp {s : State} {nnn : Addr12} (hx : Executes s) (hw : Fetches s (formatNNN 0x1#4 nnn)) :
    step s = .next (writePc s (zextNNN nnn)) := by
  refine step_next_iff.mpr ⟨?_, hx.2⟩
  calc runCycle s
      = exec (.jp nnn) (advancePc s) := by rw [runCycle_of_fetches hx hw, decodeWord_formatNNN_jp]
    _ = .next (writePc s (zextNNN nnn)) := exec_jp _ nnn

/-- Settles O19: the effect and the whole cycle are the one write of the zero-extended target to PC. -/
theorem jumpSetsPcAndNothingElse : Obligations.JumpSetsPcAndNothingElse := fun nnn =>
  ⟨decodeWord_formatNNN_jp nnn, fun s => ⟨writePc s (zextNNN nnn), exec_jp s nnn, rfl, zextNNN_toNat nnn⟩,
    fun _ hx hw => step_jp hx hw⟩

end Sys2Proof.Machine
end

section
/-! LD VX, NN and ADD VX, NN (43_register_immediate.md R100, R101): both are one write of V[X], VF an ordinary register. -/

namespace Sys2Proof

/-- A word of the family 6XNN loads its own NN into its own register (R65). -/
theorem decodeWord_formatXNN_ldImm (x : RegIdx) (nn : Byte) : decodeWord (formatXNN 0x6#4 x nn) = .ldImm x nn := by
  obtain ⟨hop, hx, hnn⟩ := formatXNN_fields 0x6#4 x nn
  rw [decodeWord_op6 hop, hx, hnn]

/-- A word of the family 7XNN adds its own NN to its own register (R65). -/
theorem decodeWord_formatXNN_addImm (x : RegIdx) (nn : Byte) : decodeWord (formatXNN 0x7#4 x nn) = .addImm x nn := by
  obtain ⟨hop, hx, hnn⟩ := formatXNN_fields 0x7#4 x nn
  rw [decodeWord_op7 hop, hx, hnn]

end Sys2Proof

namespace Sys2Proof.Machine

/-- Of two writes to one register the second counts. -/
@[simp] theorem writeV_writeV_same (s : State) (x : RegIdx) (a b : Byte) : writeV (writeV s x a) x b = writeV s x b := by
  simp only [writeV, Vector.set_set]

/-- The PC advance leaves every register as it was (R81). -/
@[simp] theorem readV_advancePc (s : State) (x : RegIdx) : readV (advancePc s) x = readV s x :=
  readV_congr _ _ x (advancePc_v s)

/-- The whole cycle of an instruction that only writes a register: PC + 2 and that write. No fault can be latched, since
the core executes and neither change touches the latch. -/
theorem step_writeV {s : State} {w : Word} {x : RegIdx} {b : Byte} (hx : Executes s) (hw : Fetches s w)
    (he : exec (decodeWord w) (advancePc s) = .next (writeV (advancePc s) x b)) :
    step s = .next (writeV (advancePc s) x b) :=
  step_next_iff.mpr ⟨(runCycle_of_fetches hx hw).trans he, hx.2⟩

/-- The whole cycle of LD VX, NN. -/
theorem step_ldImm {s : State} {x : RegIdx} {nn : Byte} (hx : Executes s) (hw : Fetches s (formatXNN 0x6#4 x nn)) :
    step s = .next (writeV (advancePc s) x nn) :=
  step_writeV hx hw (by rw [decodeWord_formatXNN_ldImm, exec_ldImm])

/-- The whole cycle of ADD VX, NN: the addend is the register before the cycle, which the PC advance does not touch. -/
theorem step_addImm {s : State} {x : RegIdx} {nn : Byte} (hx : Executes s) (hw : Fetches s (formatXNN 0x7#4 x nn)) :
    step s = .next (writeV (advancePc s) x (readV s x + nn)) :=
  step_writeV hx hw (by rw [decodeWord_formatXNN_addImm, exec_addImm, readV_advancePc])

/-- The PC advance and the write of V[X] leave every other register as it was (R100, R101). -/
theorem readV_writeV_advancePc_other (s : State) (x z : RegIdx) (b : Byte) (h : z ≠ x) :
    readV (writeV (advancePc s) x b) z = readV s z := by
  rw [readV_writeV_other _ _ _ _ h, readV_advancePc]

/-- The destination of ADD VX, NN holds the sum mod 256, in whatever state it is written (R101). -/
theorem readV_writeV_add_toNat (t : State) (x : RegIdx) (a nn : Byte) :
    (readV (writeV t x (a + nn)) x).toNat = (a.toNat + nn.toNat) % 256 := by
  rw [readV_writeV_same, BitVec.toNat_add]

/-- Settles O21: the effect and the whole cycle are the one write of NN to V[X], and of two such writes the second
counts. -/
theorem loadImmediateWritesTheRegister : Obligations.LoadImmediateWritesTheRegister := by
  intro x nn
  refine ⟨decodeWord_formatXNN_ldImm x nn, fun s => ?effect, fun s hx hw => ?wholeCycle⟩
  case effect =>
    have again : exec (.ldImm x nn) (writeV s x nn) = .next (writeV s x nn) := by rw [exec_ldImm, writeV_writeV_same]
    exact ⟨writeV s x nn, exec_ldImm s x nn, rfl, readV_writeV_same s x nn, fun z => readV_writeV_other s x z nn, again⟩
  case wholeCycle =>
    exact ⟨writeV (advancePc s) x nn, step_ldImm hx hw, rfl, readV_writeV_same _ x nn,
      fun z => readV_writeV_advancePc_other s x z nn⟩

/-- Settles O22: the effect and the whole cycle are the one write of the sum to V[X]; byte addition discards the carry,
and no second write sets a flag. -/
theorem addImmediateWrapsWithoutFlag : Obligations.AddImmediateWrapsWithoutFlag := by
  intro x nn
  refine ⟨decodeWord_formatXNN_addImm x nn, fun s => ?effect, fun s hx hw => ?wholeCycle⟩
  case effect =>
    exact ⟨writeV s x (readV s x + nn), exec_addImm s x nn, rfl, readV_writeV_add_toNat s x _ nn,
      fun z => readV_writeV_other s x z _⟩
  case wholeCycle =>
    exact ⟨writeV (advancePc s) x (readV s x + nn), step_addImm hx hw, rfl, readV_writeV_add_toNat _ x _ nn,
      fun z => readV_writeV_advancePc_other s x z _⟩

end Sys2Proof.Machine
end

section
/-! LD I, NNN (44_index.md R105): one write of I. -/

namespace Sys2Proof

/-- A word of the family ANNN loads its own NNN into I (R65). -/
theorem decodeWord_formatNNN_ldI (nnn : Addr12) : decodeWord (formatNNN 0xA#4 nnn) = .ldI nnn := by
  obtain ⟨hop, hnnn⟩ := formatNNN_fields 0xA#4 nnn
  rw [decodeWord_opA hop, hnnn]

end Sys2Proof

namespace Sys2Proof.Machine

/-- Zero extension puts four zero bits above NNN (R63). -/
theorem zextNNN_eq_append (nnn : Addr12) : zextNNN nnn = 0x0#4 ++ nnn := BitVec.setWidth_eq_append (by decide)

/-- Bits 15 to 12 of a zero-extended NNN are zero (R63). -/
theorem zextNNN_top_nibble (nnn : Addr12) : (zextNNN nnn).extractLsb' 12 4 = 0x0#4 := by
  rw [zextNNN_eq_append]
  exact BitVec.extractLsb'_append_eq_left

/-- The whole cycle of LD I, NNN: PC + 2 and the write of I. No fault can be latched, since the core executes and neither
change touches the latch. -/
theorem step_ldI {s : State} {nnn : Addr12} (hx : Executes s) (hw : Fetches s (formatNNN 0xA#4 nnn)) :
    step s = .next (writeI (advancePc s) (zextNNN nnn)) := by
  refine step_next_iff.mpr ⟨?_, hx.2⟩
  calc runCycle s
      = exec (.ldI nnn) (advancePc s) := by rw [runCycle_of_fetches hx hw, decodeWord_formatNNN_ldI]
    _ = .next (writeI (advancePc s) (zextNNN nnn)) := exec_ldI _ nnn

/-- Settles O23: the effect is the one write of the zero-extended NNN to I, and the whole cycle is that write after the PC
advance. -/
theorem loadIndexZeroExtends : Obligations.LoadIndexZeroExtends := by
  intro nnn
  refine ⟨decodeWord_formatNNN_ldI nnn, fun s => ?effect, fun s hx hw => ?wholeCycle⟩
  case effect => exact ⟨writeI s (zextNNN nnn), exec_ldI s nnn, rfl, zextNNN_toNat nnn, zextNNN_top_nibble nnn⟩
  case wholeCycle => exact step_ldI hx hw

end Sys2Proof.Machine
end

section
/-! Encoding and decoding (30_encoding.md R62, R65): the words and the well-formed instructions are in one-to-one
correspondence, and the decoder agrees with the opcode map. -/

namespace Sys2Proof

/-- A word of format NNN decodes to its family's instruction with its own NNN, where the dispatch takes that family from
OP alone. -/
theorem decodeWord_formatNNN {op : BitVec 4} {family : Addr12 → Instr}
    (hfamily : ∀ {w}, field w 12 4 = op → decodeWord w = family (field w 0 12)) (nnn : Addr12) :
    decodeWord (formatNNN op nnn) = family nnn := by
  obtain ⟨hop, hnnn⟩ := formatNNN_fields op nnn
  rw [hfamily hop, hnnn]

/-- A word of the zero-nibble family is the word of CLS exactly where its NNN is that of CLS (R65). -/
theorem formatNNN_zero_eq_cls_iff (nnn : Addr12) : formatNNN 0x0#4 nnn = 0x00E0#16 ↔ nnn = 0x0E0#12 := by
  constructor
  · intro h
    rw [← (formatNNN_fields 0x0#4 nnn).2, h]
    rfl
  · rintro rfl
    rfl

/-- A word 0NNN other than that of CLS decodes to SYS with its own NNN (R65, R91). -/
theorem decodeWord_formatNNN_sys {nnn : Addr12} (h : nnn ≠ 0x0E0#12) :
    decodeWord (formatNNN 0x0#4 nnn) = .sys nnn := by
  obtain ⟨hop, hnnn⟩ := formatNNN_fields 0x0#4 nnn
  rw [decodeWord_op0 hop, if_neg (mt (formatNNN_zero_eq_cls_iff nnn).mp h), hnnn]

/-- A word of the family DXYN decodes to DRW with its own X, Y and N (R65). -/
theorem decodeWord_formatXYN_drw (x y : RegIdx) (n : BitVec 4) : decodeWord (formatXYN 0xD#4 x y n) = .drw x y n := by
  obtain ⟨hop, hx, hy, hn⟩ := formatXYN_fields 0xD#4 x y n
  rw [decodeWord_opD hop, hx, hy, hn]

/-- Decoding undoes encoding: each format keeps its operands, and SYS keeps away from the word of CLS. -/
theorem decodeWord_encode {i : Instr} (h : i.wf = true) : decodeWord (encode i) = i := by
  cases i with
  | cls => rfl
  | sys nnn => exact decodeWord_formatNNN_sys (bne_iff_ne.mp h)
  | jp nnn => exact decodeWord_formatNNN_jp nnn
  | ldImm x nn => exact decodeWord_formatXNN_ldImm x nn
  | addImm x nn => exact decodeWord_formatXNN_addImm x nn
  | ldI nnn => exact decodeWord_formatNNN_ldI nnn
  | drw x y n => exact decodeWord_formatXYN_drw x y n
  | unsupported2 nnn => exact decodeWord_formatNNN decodeWord_op2 nnn
  | unsupported3 nnn => exact decodeWord_formatNNN decodeWord_op3 nnn
  | unsupported4 nnn => exact decodeWord_formatNNN decodeWord_op4 nnn
  | unsupported5 nnn => exact decodeWord_formatNNN decodeWord_op5 nnn
  | unsupported8 nnn => exact decodeWord_formatNNN decodeWord_op8 nnn
  | unsupported9 nnn => exact decodeWord_formatNNN decodeWord_op9 nnn
  | unsupportedB nnn => exact decodeWord_formatNNN decodeWord_opB nnn
  | unsupportedC nnn => exact decodeWord_formatNNN decodeWord_opC nnn
  | unsupportedE nnn => exact decodeWord_formatNNN decodeWord_opE nnn
  | unsupportedF nnn => exact decodeWord_formatNNN decodeWord_opF nnn

/-- The two bytes of a word, whatever follows them, decode to the word's instruction and leave exactly what follows. -/
theorem decode_wordBytes_append (w : Word) (rest : List Byte) :
    decode (wordBytes w ++ rest) = .ok (decodeWord w, rest) := by
  change Except.ok (decodeWord (field w 8 8 ++ field w 0 8), rest) = _
  rw [Machine.wordBytes_append]

/-- A word with a given OP is the format NNN of that OP and its own low 12 bits (R62). -/
theorem formatNNN_of_op {w : Word} {op : BitVec 4} (h : field w 12 4 = op) : formatNNN op (field w 0 12) = w := by
  rw [← h, ← word_eq_formatNNN]

/-- A word with a given OP is the format XNN of that OP and its own X and NN (R62). -/
theorem formatXNN_of_op {w : Word} {op : BitVec 4} (h : field w 12 4 = op) :
    formatXNN op (field w 8 4).toFin (field w 0 8) = w := by
  rw [← h, ← word_eq_formatXNN]

/-- A word with a given OP is the format XYN of that OP and its own X, Y and N (R62). -/
theorem formatXYN_of_op {w : Word} {op : BitVec 4} (h : field w 12 4 = op) :
    formatXYN op (field w 8 4).toFin (field w 4 4).toFin (field w 0 4) = w := by
  rw [← h, ← word_eq_formatXYN]

/-- A word of the zero-nibble family that is not the word of CLS has another NNN than CLS. -/
theorem nnn_ne_cls {w : Word} (hop : field w 12 4 = 0x0#4) (hw : w ≠ 0x00E0#16) : field w 0 12 ≠ 0x0E0#12 := by
  intro hnnn
  exact hw ((formatNNN_of_op hop).symm.trans ((formatNNN_zero_eq_cls_iff _).mpr hnnn))

/-- Encoding undoes decoding, and what a word decodes to is well-formed: in each family the operands are all the bits of
the word below OP. -/
theorem wf_and_encode_decodeWord (w : Word) : (decodeWord w).wf = true ∧ encode (decodeWord w) = w := by
  rcases op_cases (field w 12 4) with h | h | h | h | h | h | h | h | h | h | h | h | h | h | h | h
  · by_cases hcls : w = 0x00E0#16
    · rw [(decodeWord_eq_cls_iff w).mpr hcls]
      exact ⟨rfl, hcls.symm⟩
    · rw [decodeWord_op0 h, if_neg hcls]
      exact ⟨bne_iff_ne.mpr (nnn_ne_cls h hcls), formatNNN_of_op h⟩
  · rw [decodeWord_op1 h]; exact ⟨rfl, formatNNN_of_op h⟩
  · rw [decodeWord_op2 h]; exact ⟨rfl, formatNNN_of_op h⟩
  · rw [decodeWord_op3 h]; exact ⟨rfl, formatNNN_of_op h⟩
  · rw [decodeWord_op4 h]; exact ⟨rfl, formatNNN_of_op h⟩
  · rw [decodeWord_op5 h]; exact ⟨rfl, formatNNN_of_op h⟩
  · rw [decodeWord_op6 h]; exact ⟨rfl, formatXNN_of_op h⟩
  · rw [decodeWord_op7 h]; exact ⟨rfl, formatXNN_of_op h⟩
  · rw [decodeWord_op8 h]; exact ⟨rfl, formatNNN_of_op h⟩
  · rw [decodeWord_op9 h]; exact ⟨rfl, formatNNN_of_op h⟩
  · rw [decodeWord_opA h]; exact ⟨rfl, formatNNN_of_op h⟩
  · rw [decodeWord_opB h]; exact ⟨rfl, formatNNN_of_op h⟩
  · rw [decodeWord_opC h]; exact ⟨rfl, formatNNN_of_op h⟩
  · rw [decodeWord_opD h]; exact ⟨rfl, formatXYN_of_op h⟩
  · rw [decodeWord_opE h]; exact ⟨rfl, formatNNN_of_op h⟩
  · rw [decodeWord_opF h]; exact ⟨rfl, formatNNN_of_op h⟩

theorem encode_decodeWord (w : Word) : encode (decodeWord w) = w := (wf_and_encode_decodeWord w).2

/-! ### The opcode map -/

/-- The mask of OP keeps OP and clears the rest (R65). -/
theorem and_opMask (w : Word) : w &&& 0xF000#16 = formatNNN (field w 12 4) 0x000#12 := by
  conv_lhs => rw [word_eq_formatNNN w]
  exact Laws.TableRow.op_under_mask _ _

/-- Every row of the map but that of CLS tests OP alone (R65). -/
theorem mask_of_mem_tail : ∀ r ∈ opcodeMap.tail, r.mask = 0xF000#16 := by decide

/-- Past its first row, which is the full word of CLS, the map is a search for OP among the patterns. -/
theorem firstRow_of_ne_cls {w : Word} (h : w ≠ 0x00E0#16) :
    firstRow w = opcodeMap.tail.find? (fun r => formatNNN (field w 12 4) 0x000#12 == r.pattern) := by
  have hfirst : ¬ (w &&& 0xFFFF#16 == 0x00E0#16) = true := by
    rw [show w &&& 0xFFFF#16 = w from BitVec.and_allOnes]
    exact mt beq_iff_eq.mp h
  calc firstRow w
      = opcodeMap.tail.find? (fun r => w &&& r.mask == r.pattern) := List.find?_cons_of_neg hfirst
    _ = opcodeMap.tail.find? (fun r => formatNNN (field w 12 4) 0x000#12 == r.pattern) :=
      List.find?_congr (fun r hr => by rw [mask_of_mem_tail r hr, and_opMask])

/-- No two rows of the map past the first share an OP, and every OP has one (R65). -/
theorem find?_opcodeMap_tail (op : BitVec 4) :
    opcodeMap.tail.find? (fun r => formatNNN op 0x000#12 == r.pattern) = some ⟨0xF000#16, formatNNN op 0x000#12⟩ := by
  revert op
  decide

/-- The row of every instruction but CLS is the OP of its word above zeros. -/
theorem row_of_ne_cls {i : Instr} (h : i ≠ .cls) : i.row = ⟨0xF000#16, encode i &&& 0xF000#16⟩ := by
  cases i with
  | cls => exact absurd rfl h
  | sys | jp | ldImm | addImm | ldI | drw | unsupported2 | unsupported3 | unsupported4 | unsupported5 | unsupported8
  | unsupported9 | unsupportedB | unsupportedC | unsupportedE | unsupportedF =>
    refine congrArg (OpcodeRow.mk 0xF000#16) (Eq.symm ?_)
    exact Laws.TableRow.op_under_mask _ _

/-- The map's first match is the row of the decoded instruction: the full word decides the first row, and OP decides the
others. -/
theorem firstRow_eq (w : Word) : firstRow w = some (decodeWord w).row := by
  by_cases hcls : w = 0x00E0#16
  · subst hcls
    rfl
  · have hrow := row_of_ne_cls (mt (decodeWord_eq_cls_iff w).mp hcls)
    rw [encode_decodeWord, and_opMask] at hrow
    rw [firstRow_of_ne_cls hcls, find?_opcodeMap_tail, hrow]

end Sys2Proof

namespace Sys2Proof.Machine

/-- Settles O3: a word by `decodeWord_encode`, and the bytes of an instruction are those of its word. -/
theorem decodeOfEncodeIsTheInstruction : Obligations.DecodeOfEncodeIsTheInstruction := by
  intro i rest hwf
  refine ⟨decodeWord_encode hwf, ?_⟩
  rw [encodeBytes, decode_wordBytes_append, decodeWord_encode hwf]

/-- Settles O4: no family loses a bit, and SYS never meets the word of CLS. -/
theorem everyWordIsOneInstruction : Obligations.EveryWordIsOneInstruction := wf_and_encode_decodeWord

/-- Settles O5: `firstRow_eq`. -/
theorem decoderFollowsTheOpcodeMap : Obligations.DecoderFollowsTheOpcodeMap := firstRow_eq

/-- Settles O2: thirteen fixed words, computed. -/
theorem specWordsDecodeAsTabulated : Obligations.SpecWordsDecodeAsTabulated := by
  unfold Obligations.SpecWordsDecodeAsTabulated
  decide

end Sys2Proof.Machine
end

section
/-! The draw (45_draw.md R110 to R118): its loops give the closed form of R117 where every row they read is in memory, and
the fault of the first row address outside it where one is not. -/

namespace Sys2Proof.Machine

/-- Some sprite bit 1 of the window lies over a pixel that is on (`on = true`) or off (`on = false`) in `d` (R117). -/
def SpriteMeets (m : Memory) (i : Word) (x0 y0 n : Nat) (d : Display) (on : Bool) : Prop :=
  ∃ px py, InWindow x0 y0 n px py ∧ spriteBit m i (py - y0) (px - x0) = true ∧ pixel d px py = on

/-- The closed form of a draw with N rows at the anchor (x0, y0) on the display `d` (R117). -/
structure ClosedForm (m : Memory) (i : Word) (x0 y0 n : Nat) (d : Display) (p : Canvas) : Prop where
  inside : ∀ px py, InWindow x0 y0 n px py →
    pixel p.disp px py = (pixel d px py ^^ spriteBit m i (py - y0) (px - x0))
  outside : ∀ px py, ¬ InWindow x0 y0 n px py → pixel p.disp px py = pixel d px py
  collision : SpriteMeets m i x0 y0 n d true → p.vf = vfCollision
  noCollision : ¬ SpriteMeets m i x0 y0 n d true → p.vf = vfClear

/-- The window, whose columns and rows count from the anchor, is the rectangle of the loops cut at column 63. -/
theorem inWindow_iff {x0 y0 n : Nat} (px py : Nat) :
    InWindow x0 y0 n px py ↔
      (x0 ≤ px ∧ px < x0 + 8 ∧ px < 64) ∧ y0 ≤ py ∧ py < y0 + min n (32 - y0) := by
  simp only [InWindow]
  omega

/-- A sprite bit of the loops, by its column and row in the sprite, is one of the window, by its pixel. -/
theorem spriteMeets_iff {m : Memory} {i : Word} {x0 y0 n : Nat} {d : Display} {on : Bool} :
    SpriteMeets m i x0 y0 n d on ↔
      ∃ c r, c < 8 ∧ x0 + c < 64 ∧ r < min n (32 - y0) ∧ (m.read (i.toNat + r)).getLsbD (7 - c) = true ∧
        pixel d (x0 + c) (y0 + r) = on := by
  constructor
  · rintro ⟨px, py, hwin, hbit, hon⟩
    obtain ⟨⟨hx, hx8, hx64⟩, hy, hyn⟩ := (inWindow_iff px py).mp hwin
    refine ⟨px - x0, py - y0, by omega, by omega, by omega, hbit, ?_⟩
    rwa [Nat.add_sub_cancel' hx, Nat.add_sub_cancel' hy]
  · rintro ⟨c, r, hc, hx, hr, hbit, hon⟩
    refine ⟨x0 + c, y0 + r, (inWindow_iff _ _).mpr (by omega), ?_, hon⟩
    rwa [spriteBit, Nat.add_sub_cancel_left, Nat.add_sub_cancel_left]

/-- The loops give the closed form where the rows they read are in memory (R117). -/
theorem drawRows_closedForm {m : Memory} {i : Word} {x0 y0 n : Nat} (d : Display) (h : RowsInMemory i y0 n) :
    ∃ p, drawRows m x0 n i.toNat y0 ⟨d, vfClear⟩ = .ok p ∧ ClosedForm m i x0 y0 n d p := by
  obtain ⟨p, hp, hpixel, -, hset, hkeep⟩ := drawRows_ok (m := m) (x0 := x0) (p := ⟨d, vfClear⟩) h
  refine ⟨p, hp, ?inside, ?outside, fun hm => hset (spriteMeets_iff.mp hm), fun hm => hkeep (mt spriteMeets_iff.mpr hm)⟩
  case inside =>
    intro px py hwin
    rw [hpixel, if_pos ((inWindow_iff px py).mp hwin)]
    rfl
  case outside =>
    intro px py hwin
    rw [hpixel, if_neg (mt (inWindow_iff px py).mpr hwin)]

/-- The state after a completed draw: display and VF as the loops leave them, and one notification (R110, R115). -/
abbrev drawn (s : State) (p : Canvas) : State := notifyRender (writeV (writeDisp s p.disp) regVF p.vf)

/-- What DXYN does where the rows it reads are in memory. -/
theorem exec_drw_inside {s : State} {x y : RegIdx} {n : BitVec 4} (h : RowsInMemory s.i (anchorY s y) n.toNat) :
    ∃ p, exec (.drw x y n) s = .next (drawn s p) ∧
      ClosedForm s.mem s.i (anchorX s x) (anchorY s y) n.toNat s.disp p := by
  obtain ⟨p, hloops, hform⟩ := drawRows_closedForm (m := s.mem) (x0 := anchorX s x) s.disp h
  rcases exec_drw s x y n with ⟨q, hq, hexec⟩ | ⟨f, hf, -⟩
  · cases hq.symm.trans hloops
    exact ⟨p, hexec, hform⟩
  · cases hf.symm.trans hloops

/-- What DXYN does where a row it reads is outside memory: the fault of the first such address (R116). -/
theorem exec_drw_outside {s : State} {x y : RegIdx} {n : BitVec 4} (h : ¬ RowsInMemory s.i (anchorY s y) n.toNat) :
    exec (.drw x y n) s = .next (raise (.memoryOutOfBounds (max s.i.toNat 0x1000)) (leaveDrawOpen s)) := by
  have hloops := drawRows_error (m := s.mem) (x0 := anchorX s x) (p := ⟨s.disp, vfClear⟩) h
  rcases exec_drw s x y n with ⟨q, hq, -⟩ | ⟨f, hf, hexec⟩
  · cases hq.symm.trans hloops
  · cases hf.symm.trans hloops
    exact hexec

/-- VF after a draw is the flag the loops computed. -/
theorem readV_drawn_vf (s : State) (p : Canvas) : readV (drawn s p) regVF = p.vf :=
  readV_writeV_same (writeDisp s p.disp) regVF p.vf

/-- A draw leaves every register but VF as it was (R110). -/
theorem readV_drawn_other (s : State) (p : Canvas) {z : RegIdx} (h : z ≠ regVF) : readV (drawn s p) z = readV s z :=
  readV_writeV_other (writeDisp s p.disp) regVF z p.vf h

/-- VF is set by a collision and by nothing else, since the cleared value is another (R112, R114). -/
theorem ClosedForm.vf_eq_collision_iff {m : Memory} {i : Word} {x0 y0 n : Nat} {d : Display} {p : Canvas}
    (h : ClosedForm m i x0 y0 n d p) : p.vf = vfCollision ↔ SpriteMeets m i x0 y0 n d true := by
  refine ⟨fun hvf => ?_, h.collision⟩
  by_contra hno
  exact absurd ((h.noCollision hno).symm.trans hvf) (by decide)

/-- The window lies on the display and in the sprite's own rectangle. -/
theorem InWindow.bounds {x0 y0 n px py : Nat} (hn : n < 16) (h : InWindow x0 y0 n px py) :
    x0 ≤ px ∧ px ≤ min (x0 + 7) 63 ∧ y0 ≤ py ∧ py ≤ min (y0 + 14) 31 ∧ py < y0 + n := by
  simp only [InWindow] at h
  omega

/-- A second draw of the same sprite at the same anchor undoes the first: two XORs with one bit cancel (R117). -/
theorem ClosedForm.undo {m : Memory} {i : Word} {x0 y0 n : Nat} {d : Display} {p q : Canvas}
    (hp : ClosedForm m i x0 y0 n d p) (hq : ClosedForm m i x0 y0 n p.disp q) : q.disp = d := by
  refine display_ext (fun px py _ _ => ?_)
  by_cases hwin : InWindow x0 y0 n px py
  · rw [hq.inside px py hwin, hp.inside px py hwin, Bool.xor_assoc, Bool.xor_self, Bool.xor_false]
  · rw [hq.outside px py hwin, hp.outside px py hwin]

/-- A sprite bit 1 meets an on pixel after a draw exactly where it met an off pixel before it (R117). -/
theorem ClosedForm.spriteMeets_after_iff {m : Memory} {i : Word} {x0 y0 n : Nat} {d : Display} {p : Canvas}
    (h : ClosedForm m i x0 y0 n d p) : SpriteMeets m i x0 y0 n p.disp true ↔ SpriteMeets m i x0 y0 n d false := by
  have flipped : ∀ px py, InWindow x0 y0 n px py → spriteBit m i (py - y0) (px - x0) = true →
      (pixel p.disp px py = true ↔ pixel d px py = false) := fun px py hwin hbit => by
    rw [h.inside px py hwin, hbit, Bool.xor_true, Bool.not_eq_true']
  exact exists_congr fun px => exists_congr fun py => and_congr_right fun hwin => and_congr_right (flipped px py hwin)

/-- Settles O25: the loops give the closed form, and the state around them is `drawn`. -/
theorem drawIsTheClosedForm : Obligations.DrawIsTheClosedForm := by
  intro x y n s x0 y0 hrows
  obtain ⟨p, hexec, hform⟩ := exec_drw_inside (x := x) hrows
  have hvf := readV_drawn_vf s p
  refine ⟨drawn s p, hexec, fun px py _ _ => ⟨hform.inside px py, hform.outside px py⟩,
    fun hmeets => hvf.trans (hform.collision hmeets), fun hmeets => hvf.trans (hform.noCollision hmeets), ?_⟩
  rw [hvf]
  rfl

/-- Settles O28: no row is read, so VF is cleared, the display is written as it was, and one notification is emitted. -/
theorem drawOfNoRowsClearsVfAndNotifies : Obligations.DrawOfNoRowsClearsVfAndNotifies := fun _ _ _ => rfl

/-- Settles O29: the second draw is the closed form on the display the first left, at the anchor and with the sprite of
the first. -/
theorem drawingTwiceRestoresTheDisplay : Obligations.DrawingTwiceRestoresTheDisplay := by
  intro x y n s x0 y0 hrows
  obtain ⟨p, hfirst, hp⟩ := exec_drw_inside (x := x) hrows
  refine ⟨drawn s p, hfirst, fun hx => by rw [readV_drawn_other s p hx], fun hy => by rw [readV_drawn_other s p hy], ?_⟩
  intro (hx0 : anchorX (drawn s p) x = x0) (hy0 : anchorY (drawn s p) y = y0)
  have hrows' : RowsInMemory (drawn s p).i (anchorY (drawn s p) y) n.toNat := by rwa [hy0]
  obtain ⟨q, hsecond, hq⟩ := exec_drw_inside (x := x) hrows'
  rw [hx0, hy0] at hq
  have hq' : ClosedForm s.mem s.i x0 y0 n.toNat p.disp q := hq
  refine ⟨drawn (drawn s p) q, hsecond, hp.undo hq', ?_⟩
  rw [readV_drawn_vf]
  exact hq'.vf_eq_collision_iff.trans hp.spriteMeets_after_iff

/-- Settles O30: a pixel outside the window is as it was, and the window is inside the rectangle. -/
theorem drawStaysInsideItsRectangle : Obligations.DrawStaysInsideItsRectangle := by
  intro x y n s t px py hrows hexec hchanged
  obtain ⟨p, hdrawn, hform⟩ := exec_drw_inside (x := x) hrows
  cases hexec.symm.trans hdrawn
  have hwin : InWindow (anchorX s x) (anchorY s y) n.toNat px py := by
    by_contra hout
    exact hchanged (hform.outside px py hout)
  exact hwin.bounds n.isLt

end Sys2Proof.Machine
end

section
/-! What an instruction's effect can be (40_cycle.md R80, 60_exceptions.md R137), said once; from it what every instruction
leaves alone and which instructions can raise a fault. -/

namespace Sys2Proof.Machine

/-- Every effect of an instruction on a state whose PC is already advanced, with the state it leaves. -/
inductive Effect (s : State) : Instr → State → Prop
  | cls : Effect s .cls (writeDisp s displayOff)
  | jp (nnn : Addr12) : Effect s (.jp nnn) (writePc s (zextNNN nnn))
  | ldImm (x : RegIdx) (nn : Byte) : Effect s (.ldImm x nn) (writeV s x nn)
  | addImm (x : RegIdx) (nn : Byte) : Effect s (.addImm x nn) (writeV s x (readV s x + nn))
  | ldI (nnn : Addr12) : Effect s (.ldI nnn) (writeI s (zextNNN nnn))
  | drawn {x y : RegIdx} {n : BitVec 4} {p : Canvas} (rows : RowsInMemory s.i (anchorY s y) n.toNat)
      (form : ClosedForm s.mem s.i (anchorX s x) (anchorY s y) n.toNat s.disp p) : Effect s (.drw x y n) (drawn s p)
  | drawFault {x y : RegIdx} {n : BitVec 4} (rows : ¬ RowsInMemory s.i (anchorY s y) n.toNat) :
      Effect s (.drw x y n) (raise (.memoryOutOfBounds (max s.i.toNat 0x1000)) (leaveDrawOpen s))
  | unsupported {i : Instr} (rejected : executable i = false) : Effect s i (raiseUnsupported (encode i) s)

/-- SYS and the ten families have one effect: their own word is the fault (R91, R120). -/
theorem exec_of_not_executable {i : Instr} (s : State) (h : executable i = false) :
    exec i s = .next (raiseUnsupported (encode i) s) := by
  cases i with
  | cls | jp | ldImm | addImm | ldI | drw => cases h
  | sys | unsupported2 | unsupported3 | unsupported4 | unsupported5 | unsupported8 | unsupported9 | unsupportedB
  | unsupportedC | unsupportedE | unsupportedF => rfl

/-- Every instruction's effect ends in a state, and it is one of the listed effects. -/
theorem exec_total (i : Instr) (s : State) : ∃ t, exec i s = .next t ∧ Effect s i t := by
  cases he : executable i with
  | false => exact ⟨_, exec_of_not_executable s he, .unsupported he⟩
  | true =>
    cases i with
    | cls => exact ⟨_, exec_cls s, .cls⟩
    | jp nnn => exact ⟨_, exec_jp s nnn, .jp nnn⟩
    | ldImm x nn => exact ⟨_, exec_ldImm s x nn, .ldImm x nn⟩
    | addImm x nn => exact ⟨_, exec_addImm s x nn, .addImm x nn⟩
    | ldI nnn => exact ⟨_, exec_ldI s nnn, .ldI nnn⟩
    | drw x y n =>
      by_cases hrows : RowsInMemory s.i (anchorY s y) n.toNat
      · obtain ⟨p, hexec, hform⟩ := exec_drw_inside (x := x) hrows
        exact ⟨_, hexec, .drawn hrows hform⟩
      · exact ⟨_, exec_drw_outside hrows, .drawFault hrows⟩
    | sys | unsupported2 | unsupported3 | unsupported4 | unsupported5 | unsupported8 | unsupported9 | unsupportedB
    | unsupportedC | unsupportedE | unsupportedF => cases he

/-- The state an instruction answers is that of a listed effect. -/
theorem effect_of_exec {i : Instr} {s t : State} (h : exec i s = .next t) : Effect s i t := by
  obtain ⟨u, hu, heffect⟩ := exec_total i s
  cases h.symm.trans hu
  exact heffect

namespace Effect

variable {s t : State} {i : Instr}

/-- No effect writes memory, STACK, the timers or the stage (R25, R26, R30, R43). -/
theorem inert (h : Effect s i t) :
    t.mem = s.mem ∧ t.stack = s.stack ∧ t.dt = s.dt ∧ t.st = s.st ∧ t.stage = s.stage := by
  cases h <;> exact ⟨rfl, rfl, rfl, rfl, rfl⟩

/-- A general register other than the instruction's destination is as it was (R20 to R22). -/
theorem readV_eq (h : Effect s i t) {z : RegIdx} (hz : destV i ≠ some z) : readV t z = readV s z := by
  have hne : ∀ {x}, destV i = some x → z ≠ x := fun hx e => hz (e ▸ hx)
  cases h with
  | cls | jp | ldI | unsupported => rfl
  | ldImm x nn | addImm x nn => exact readV_writeV_other s x z _ (hne rfl)
  | drawn => exact readV_drawn_other s _ (hne rfl)
  | drawFault => exact readV_writeV_other s regVF z (Config.freeByte s.freeCount) (hne rfl)

/-- I changes by ANNN alone (R23). -/
theorem i_eq (h : Effect s i t) (hi : ∀ nnn, i ≠ .ldI nnn) : t.i = s.i := by
  cases h with
  | ldI nnn => exact absurd rfl (hi nnn)
  | cls | jp | ldImm | addImm | drawn | drawFault | unsupported => rfl

/-- The PC the cycle advanced changes by 1NNN alone (R24, R81). -/
theorem pc_eq (h : Effect s i t) (hi : ∀ nnn, i ≠ .jp nnn) : t.pc = s.pc := by
  cases h with
  | jp nnn => exact absurd rfl (hi nnn)
  | cls | ldImm | addImm | ldI | drawn | drawFault | unsupported => rfl

/-- DISP changes by CLS and DXYN alone (R27, conflict C3). -/
theorem disp_eq (h : Effect s i t) (hcls : i ≠ .cls) (hdrw : ∀ x y n, i ≠ .drw x y n) : t.disp = s.disp := by
  cases h with
  | cls => exact absurd rfl hcls
  | drawn | drawFault => exact absurd rfl (hdrw _ _ _)
  | jp | ldImm | addImm | ldI | unsupported => rfl

/-- RENDER_COUNT changes by DXYN alone (R31, conflict C4). -/
theorem renderCount_eq (h : Effect s i t) (hdrw : ∀ x y n, i ≠ .drw x y n) : t.renderCount = s.renderCount := by
  cases h with
  | drawn | drawFault => exact absurd rfl (hdrw _ _ _)
  | cls | jp | ldImm | addImm | ldI | unsupported => rfl

/-- A draw notifies once if it completes and not at all if it faults (R115, R116). -/
theorem renderCount_drw {x y : RegIdx} {n : BitVec 4} (h : Effect s (.drw x y n) t) (hnone : s.fault = none) :
    t.renderCount = if t.fault = none then s.renderCount + 1 else s.renderCount := by
  cases h with
  | drawn => exact (if_pos hnone).symm
  | drawFault => rfl
  | unsupported rejected => cases rejected

/-- From a state without a fault, an effect latches one exactly where the instruction is not executable or draws from
outside memory (R131, R134). -/
theorem fault_eq_none_iff (h : Effect s i t) (hnone : s.fault = none) :
    t.fault = none ↔
      executable i = true ∧ ∀ x y n, i = .drw x y n → RowsInMemory s.i (anchorY s y) n.toNat := by
  cases h with
  | cls | jp | ldImm | addImm | ldI => exact ⟨fun _ => ⟨rfl, nofun⟩, fun _ => hnone⟩
  | drawn rows =>
    refine ⟨fun _ => ⟨rfl, ?_⟩, fun _ => hnone⟩
    rintro _ _ _ ⟨⟩
    exact rows
  | drawFault rows => exact ⟨nofun, fun hinside => absurd (hinside.2 _ _ _ rfl) rows⟩
  | unsupported rejected => exact ⟨nofun, fun hexecutable => absurd hexecutable.1 (by simp [rejected])⟩

/-- An effect that latches a fault outside DXYN changes the latch alone (R137). -/
theorem eq_raise (h : Effect s i t) (hnone : s.fault = none) {f : Fault} (hf : t.fault = some f)
    (hdrw : ∀ x y n, i ≠ .drw x y n) : t = raise f s := by
  cases h with
  | cls | jp | ldImm | addImm | ldI => cases hnone.symm.trans hf
  | drawn | drawFault => exact absurd rfl (hdrw _ _ _)
  | unsupported => cases hf; rfl

/-- An effect that latches a fault leaves PC, I, RENDER_COUNT and every register but VF as they were (R116, R137). -/
theorem raised_frame (h : Effect s i t) (hnone : s.fault = none) {f : Fault} (hf : t.fault = some f) :
    t.pc = s.pc ∧ (∀ z, z ≠ regVF → readV t z = readV s z) ∧ t.i = s.i ∧ t.renderCount = s.renderCount := by
  cases h with
  | cls | jp | ldImm | addImm | ldI | drawn => cases hnone.symm.trans hf
  | drawFault => exact ⟨rfl, fun z hz => readV_writeV_other s regVF z (Config.freeByte s.freeCount) hz, rfl, rfl⟩
  | unsupported => exact ⟨rfl, fun _ _ => rfl, rfl, rfl⟩

end Effect

/-- Settles O31: the memory is the same, so every byte reads as before. -/
theorem instructionsLeaveMemoryAndInertState : Obligations.InstructionsLeaveMemoryAndInertState := by
  intro i s t h
  have hinert := (effect_of_exec h).inert
  exact ⟨fun a => by rw [hinert.1], hinert⟩

/-- Settles O32: one frame of `Effect` per register. -/
theorem instructionsWriteOnlyTheirRegister : Obligations.InstructionsWriteOnlyTheirRegister := fun _ _ _ h =>
  have heffect := effect_of_exec h
  ⟨fun _ => heffect.readV_eq, heffect.i_eq, heffect.pc_eq⟩

/-- Settles O33: the frames of DISP and RENDER_COUNT, and the two outcomes of a draw. -/
theorem onlyClsAndDrawTouchTheDisplay : Obligations.OnlyClsAndDrawTouchTheDisplay := by
  intro i s t h
  have heffect := effect_of_exec h
  refine ⟨heffect.disp_eq, heffect.renderCount_eq, ?_⟩
  rintro x y n rfl hnone
  exact heffect.renderCount_drw hnone

/-- Settles O34: each of the five is one write of a field other than the latch. -/
theorem fiveInstructionsNeverFault : Obligations.FiveInstructionsNeverFault := by
  rintro i s (rfl | ⟨nnn, rfl⟩ | ⟨x, nn, rfl⟩ | ⟨x, nn, rfl⟩ | ⟨nnn, rfl⟩)
  · exact ⟨_, exec_cls s, rfl, rfl⟩
  · exact ⟨_, exec_jp s nnn, rfl, rfl⟩
  · exact ⟨_, exec_ldImm s x nn, rfl, rfl⟩
  · exact ⟨_, exec_addImm s x nn, rfl, rfl⟩
  · exact ⟨_, exec_ldI s nnn, rfl, rfl⟩

end Sys2Proof.Machine
end

section
/-! The call (40_cycle.md R80 to R85, 60_exceptions.md R142, R149, R150): what it answers in each of its four situations,
what every call leaves alone, and what a run of steps keeps. -/

namespace Sys2Proof.Machine

variable {s t : State} {f : Fault}

/-! ### The situations of a call -/

theorem runCycle_of_not_ready (h : s.stage ≠ .ready) : runCycle s = .refused .notReady := by
  rcases cycle_eq (fun w t => exec (decodeWord w) t) s with ⟨-, e⟩ | ⟨hs, -⟩ | ⟨hs, -⟩
  · exact e
  · exact absurd hs h
  · exact absurd hs h

theorem runCycle_of_latched (hready : s.stage = .ready) (hf : s.fault = some f) : runCycle s = .fault f := by
  simp only [runCycle, cycle, hready, hf]

theorem runCycle_of_fetch_error (hx : Executes s) (hfetch : fetch16 s.mem s.pc.toNat = .error f) :
    runCycle s = .next (raise f s) := by
  obtain ⟨hready, hnone⟩ := hx
  simp only [runCycle, cycle, hready, hnone, hfetch]

/-- A call before the first reset is refused and changes nothing (R85). -/
theorem call_refused (h : s.stage ≠ .ready) :
    step s = .refused .notReady ∧ executeCycle s = (s, .refused .notReady) := by
  simp only [step, executeCycle, runCycle_of_not_ready h, outcomeOf_refused, and_self]

/-- A call of a core with a latched fault reports it and changes nothing (R84). -/
theorem call_latched (hready : s.stage = .ready) (hf : s.fault = some f) :
    step s = .fault f ∧ executeCycle s = (s, .faulted f) := by
  simp only [step, executeCycle, runCycle_of_latched hready hf, outcomeOf_fault, and_self]

/-- A call that leaves a fault latched is that fault (R137, R150). -/
theorem call_raised (h : runCycle s = .next t) (hf : t.fault = some f) :
    step s = .fault f ∧ executeCycle s = (t, .faulted f) :=
  ⟨by rw [step, h, outcomeOf_raised hf], executeCycle_raised h hf⟩

/-- A call that leaves no fault latched succeeds with the state it leaves (R150). -/
theorem call_succeeds (h : runCycle s = .next t) (hf : t.fault = none) :
    step s = .next t ∧ executeCycle s = (t, .success) :=
  ⟨step_next_iff.mpr ⟨h, hf⟩, executeCycle_next h hf⟩

/-- A fetch that faults is the outcome of the call, and the latch is all it changes (R82). -/
theorem call_of_fetch_error (hx : Executes s) (hfetch : fetch16 s.mem s.pc.toNat = .error f) :
    step s = .fault f ∧ executeCycle s = (raise f s, .faulted f) :=
  call_raised (runCycle_of_fetch_error hx hfetch) rfl

/-- A fetch from an address outside memory faults at that address (R82). -/
theorem fetch16_of_le {m : Memory} {a : Nat} (h : 0x1000 ≤ a) : fetch16 m a = .error (.memoryOutOfBounds a) := by
  rw [fetch16_eq, if_neg (by omega), if_neg (by omega)]

/-- A fetch from the last byte of memory faults at the byte after it (R82). -/
theorem fetch16_last (m : Memory) : fetch16 m 0xFFF = .error (.memoryOutOfBounds 0x1000) := by
  rw [fetch16_eq, if_neg (by decide), if_pos (by decide)]

/-- A core that executes answers every call with a state: the fetch faults in one, or the instruction ends in one. -/
theorem runCycle_total (hx : Executes s) : ∃ t, runCycle s = .next t := by
  cases hfetch : fetch16 s.mem s.pc.toNat with
  | error f => exact ⟨_, runCycle_of_fetch_error hx hfetch⟩
  | ok w =>
    obtain ⟨t, hexec, -⟩ := exec_total (decodeWord w) (advancePc s)
    exact ⟨t, (runCycle_of_fetches hx hfetch).trans hexec⟩

/-- The state a call leaves, where it runs. -/
theorem executeCycle_fst (h : runCycle s = .next t) : (executeCycle s).1 = t := by
  simp only [executeCycle, h]

/-- The two ways a step answers a fault: it was latched, or the call latches it (R84, R137). -/
theorem step_fault_cases (h : step s = .fault f) :
    (s.stage = .ready ∧ s.fault = some f) ∨ (Executes s ∧ ∃ t, runCycle s = .next t ∧ t.fault = some f) := by
  by_cases hready : s.stage = .ready
  · cases hs : s.fault with
    | some g =>
      cases h.symm.trans (call_latched hready hs).1
      exact .inl ⟨hready, rfl⟩
    | none =>
      obtain ⟨t, hrun⟩ := runCycle_total ⟨hready, hs⟩
      cases ht : t.fault with
      | none => cases h.symm.trans (call_succeeds hrun ht).1
      | some g =>
        cases h.symm.trans (call_raised hrun ht).1
        exact .inr ⟨⟨hready, hs⟩, t, hrun, ht⟩
  · cases h.symm.trans (call_refused hready).1

/-! ### What a call leaves alone -/

/-- No call that runs writes memory, STACK, the timers or the stage. -/
theorem runCycle_inert (h : runCycle s = .next t) :
    t.mem = s.mem ∧ t.stack = s.stack ∧ t.dt = s.dt ∧ t.st = s.st ∧ t.stage = s.stage := by
  obtain ⟨-, -, ⟨f, -, rfl⟩ | ⟨w, -, hexec⟩⟩ := runCycle_next_cases h
  · exact ⟨rfl, rfl, rfl, rfl, rfl⟩
  · exact (effect_of_exec hexec).inert

/-- `executeCycle` moves no stage (R166). -/
theorem executeCycle_stage (s : State) : (executeCycle s).1.stage = s.stage := by
  rcases executeCycle_state s with hrun | ⟨-, hsame⟩
  · obtain ⟨-, -, -, -, hstage⟩ := runCycle_inert hrun
    exact hstage
  · rw [hsame]

/-- A step that answers a fault leaves a core that is Ready with that fault latched, and reports it. -/
theorem executeCycle_of_step_fault (h : step s = .fault f) :
    ∃ t, executeCycle s = (t, .faulted f) ∧ t.stage = .ready ∧ t.fault = some f := by
  rcases step_fault_cases h with ⟨hready, hf⟩ | ⟨hx, t, hrun, hf⟩
  · exact ⟨s, (call_latched hready hf).2, hready, hf⟩
  · obtain ⟨-, -, -, -, hstage⟩ := runCycle_inert hrun
    exact ⟨t, (call_raised hrun hf).2, hstage.trans hx.1, hf⟩

/-- A state that a step answers executes again. -/
theorem executes_of_step (h : step s = .next t) : Executes t := by
  obtain ⟨hrun, hnone⟩ := step_next_iff.mp h
  obtain ⟨hready, -⟩ := runCycle_next_cases hrun
  obtain ⟨-, -, -, -, hstage⟩ := runCycle_inert hrun
  exact ⟨hstage.trans hready, hnone⟩

/-- PC after the advance, inside memory, is 2 higher without a wrap (R81, D6). -/
theorem advancePc_pc_toNat (h : s.pc.toNat ≤ 0xFFE) : (advancePc s).pc.toNat = s.pc.toNat + 2 := by
  rw [advancePc_pc, BitVec.toNat_add]
  exact Nat.mod_eq_of_lt (by simp only [BitVec.toNat_ofNat]; omega)

/-! ### Runs of steps -/

theorem run_succ_of_next (h : step s = .next t) (k : Nat) :
    Host.Core.run core (k + 1) s = Host.Core.run core k t := by
  have hstep : core.step s = .next t := h
  simp only [Host.Core.run, hstep]

theorem run_succ_of_fault (h : step s = .fault f) (k : Nat) : Host.Core.run core (k + 1) s = .fault f := by
  have hstep : core.step s = .fault f := h
  simp only [Host.Core.run, hstep]

/-- One or more steps that end in a next state are one step and the rest of the run from the state it answers. -/
theorem exists_step_of_run_succ {k : Nat} (h : Host.Core.run core (k + 1) s = .next t) :
    ∃ u, step s = .next u ∧ Host.Core.run core k u = .next t := by
  cases hstep : step s with
  | next u => exact ⟨u, rfl, (run_succ_of_next hstep k).symm.trans h⟩
  | fault f => cases h.symm.trans (run_succ_of_fault hstep k)
  | refused r =>
    have hrefused : core.step s = .refused r := hstep
    simp only [Host.Core.run, hrefused, reduceCtorEq] at h

/-- The last of one or more steps answers a state that executes. -/
theorem executes_of_run {k : Nat} (h : Host.Core.run core (k + 1) s = .next t) : Executes t := by
  induction k generalizing s with
  | zero =>
    obtain ⟨u, hstep, hend⟩ := exists_step_of_run_succ h
    cases hend
    exact executes_of_step hstep
  | succ k ih =>
    obtain ⟨u, -, hrest⟩ := exists_step_of_run_succ h
    exact ih hrest

end Sys2Proof.Machine
end

section
/-! The statements about memory reads, the cycle and its faults (20_memory.md, 40_cycle.md, 60_exceptions.md). -/

namespace Sys2Proof.Machine

/-- Settles O7: below 0x1000 a checked read is the read, at and above it the fault. -/
theorem readsOutsideMemoryRaise : Obligations.ReadsOutsideMemoryRaise := fun _ _ =>
  ⟨fun h => memRead_inside (by omega), fun h => memRead_outside (by omega)⟩

/-- Settles O8: the two bytes at PC are the fetched word, and what they decode to is that word's instruction. -/
theorem stepRunsTheDecodedInstruction : Obligations.StepRunsTheDecodedInstruction := by
  intro s i hx hpc hdecode
  have hi : decodeWord (s.mem.read s.pc.toNat ++ s.mem.read (s.pc.toNat + 1)) = i :=
    congrArg Prod.fst (Except.ok.inj hdecode)
  have hrun : runCycle s = exec i (advancePc s) := by
    rw [runCycle_of_fetches hx (fetch16_ok_iff.mpr ⟨hpc, rfl⟩), hi]
  exact ⟨hrun, fun t ht =>
    ⟨fun hnone => call_succeeds (hrun.trans ht) hnone, fun f hf => call_raised (hrun.trans ht) hf⟩⟩

/-- Settles O12: the refusal comes before everything else. -/
theorem callBeforeResetIsRefused : Obligations.CallBeforeResetIsRefused := fun _ => call_refused

/-- Settles O9: one clause per situation of a call, the fetch faulting at the high byte, at the low byte, or not. -/
theorem cycleMeetsEventsInFixedOrder : Obligations.CycleMeetsEventsInFixedOrder := by
  intro s
  refine ⟨fun h => (call_refused h).1, fun f hready hf => (call_latched hready hf).1, fun hx hpc => ?highByte,
    fun hx hpc => ?lowByte, fun hx hpc => ?dispatch⟩
  case highByte =>
    obtain ⟨hstep, hcall⟩ := call_of_fetch_error hx (fetch16_of_le hpc)
    exact ⟨hstep, congrArg Prod.fst hcall⟩
  case lowByte =>
    obtain ⟨hstep, hcall⟩ := call_of_fetch_error hx (hpc ▸ fetch16_last s.mem)
    exact ⟨hstep, congrArg Prod.fst hcall⟩
  case dispatch =>
    have hw : Fetches s (s.mem.read s.pc.toNat ++ s.mem.read (s.pc.toNat + 1)) := fetch16_ok_iff.mpr ⟨hpc, rfl⟩
    exact ⟨_, hw, runCycle_of_fetches hx hw⟩

/-- Settles O10: a jump writes PC, and any other instruction leaves the advanced PC, which does not wrap after a fetch. -/
theorem pcAdvancesByTwoUnlessJump : Obligations.PcAdvancesByTwoUnlessJump := by
  intro s w hx hw
  have hrun := runCycle_of_fetches hx hw
  constructor
  · intro nnn hjp
    rw [hjp, exec_jp] at hrun
    rw [executeCycle_fst hrun, writePc_pc, zextNNN_toNat]
  · intro hjp
    obtain ⟨t, hexec, heffect⟩ := exec_total (decodeWord w) (advancePc s)
    obtain ⟨hpc, -⟩ := fetch16_ok_iff.mp hw
    rw [executeCycle_fst (hrun.trans hexec), heffect.pc_eq hjp, advancePc_pc_toNat hpc]

/-- Calls of a core with a latched fault change nothing, however many there are (R84). -/
theorem runTransactions_replicate_latched {s : State} {f : Fault} (hready : s.stage = .ready) (hf : s.fault = some f)
    (k : Nat) : runTransactions (List.replicate k .executeCycle) s = s := by
  induction k with
  | zero => rfl
  | succ k ih =>
    have hcall : (transact .executeCycle s).1 = s := congrArg Prod.fst (call_latched hready hf).2
    rw [List.replicate_succ, runTransactions_cons, hcall, ih]

/-- `loadRom` keeps a latched fault, whether the ROM fits or not (R139, R163). -/
theorem loadRom_fault_of_latched {s : State} {f : Fault} (hf : s.fault = some f) (bytes : List Byte) :
    (loadRom bytes s).1.fault = some f := by
  rcases loadRom_cases bytes s with ⟨-, e⟩ | ⟨-, e⟩
  · rw [e, latchFirst_eq, hf]
    rfl
  · rw [e]
    exact hf

/-- Settles O11: no call touches the latch, and reset() clears it. -/
theorem latchedFaultIsReportedAgain : Obligations.LatchedFaultIsReportedAgain := by
  intro s f hready hf
  obtain ⟨hstep, hcall⟩ := call_latched hready hf
  exact ⟨runTransactions_replicate_latched hready hf, hstep, hcall, loadRom_fault_of_latched hf, warmReset_fault s⟩

/-- Settles O13: the call of an executing core leaves a state, and the latch in it decides between the two outcomes. -/
theorem everyExecutingCoreSteps : Obligations.EveryExecutingCoreSteps := by
  refine ⟨fun i s => ?_, fun s hx => ?_⟩
  · obtain ⟨t, hexec, -⟩ := exec_total i s
    exact ⟨t, hexec⟩
  · obtain ⟨t, hrun⟩ := runCycle_total hx
    cases hf : t.fault with
    | none =>
      obtain ⟨hstep, hcall⟩ := call_succeeds hrun hf
      exact .inl ⟨t, hstep, hf, hcall⟩
    | some f =>
      obtain ⟨hstep, hcall⟩ := call_raised hrun hf
      exact .inr ⟨t, f, hstep, hf, hcall⟩

/-- Settles O14: the last step of a run answers an executing state, and a step that faults leaves a latched core. -/
theorem faultedStateNeverEndsARun : Obligations.FaultedStateNeverEndsARun := by
  refine fun s => ⟨fun k t hrun => (executes_of_run hrun).symm, fun f hstep => ?_⟩
  obtain ⟨t, hcall, hready, hf⟩ := executeCycle_of_step_fault hstep
  rw [hcall]
  exact ⟨run_succ_of_fault hstep, hf, (call_latched hready hf).2⟩

/-- A call that latches a fault leaves I, RENDER_COUNT and every register but VF as they were, and PC as it was or
advanced (R137). -/
theorem runCycle_raised_frame {s t : State} {f : Fault} (hrun : runCycle s = .next t) (hf : t.fault = some f) :
    (t.pc = s.pc ∨ t.pc = s.pc + 2#16) ∧ (∀ z, z ≠ regVF → readV t z = readV s z) ∧ t.i = s.i ∧
      t.renderCount = s.renderCount := by
  obtain ⟨-, hnone, ⟨g, -, rfl⟩ | ⟨w, -, hexec⟩⟩ := runCycle_next_cases hrun
  · exact ⟨.inl rfl, fun _ _ => rfl, rfl, rfl⟩
  · obtain ⟨hpc, hframe⟩ := (effect_of_exec hexec).raised_frame hnone hf
    exact ⟨.inr hpc, hframe⟩

/-- A call that latches a fault and runs no DXYN leaves VF and DISP as they were (R137). -/
theorem runCycle_raised_outside_draw {s t : State} {f : Fault} (hrun : runCycle s = .next t) (hf : t.fault = some f)
    (hdrw : ∀ w x y n, Fetches s w → decodeWord w ≠ .drw x y n) :
    readV t regVF = readV s regVF ∧ t.disp = s.disp := by
  obtain ⟨-, hnone, ⟨g, -, rfl⟩ | ⟨w, hw, hexec⟩⟩ := runCycle_next_cases hrun
  · exact ⟨rfl, rfl⟩
  · rw [(effect_of_exec hexec).eq_raise hnone hf (fun x y n => hdrw w x y n hw)]
    exact ⟨rfl, rfl⟩

/-- Settles O15: with no fault latched before it, the call itself latched the fault. -/
theorem faultEntrySavesNothing : Obligations.FaultEntrySavesNothing := by
  intro s f hnone hstep
  rcases step_fault_cases hstep with ⟨-, hlatched⟩ | ⟨-, t, hrun, hf⟩
  · cases hnone.symm.trans hlatched
  obtain ⟨hmem, hstack, hdt, hst, hstage⟩ := runCycle_inert hrun
  obtain ⟨hpc, hv, hi, hrender⟩ := runCycle_raised_frame hrun hf
  exact ⟨t, (call_raised hrun hf).2, hf, hpc, hv, hi, fun a => by rw [hmem], hstack, hdt, hst, hstage, hrender,
    runCycle_raised_outside_draw hrun hf⟩

/-! ### Unsupported words -/

/-- What a call does with a word that is not executable: it raises the fault of that word on the advanced state, and so
does every later step (R66, R91, R120, D3). -/
theorem call_unsupported {s : State} {w : Word} (hx : Executes s) (hw : Fetches s w)
    (hrejected : executable (decodeWord w) = false) :
    step s = .fault (.unsupportedInstruction w (subCause w)) ∧
    executeCycle s = (raiseUnsupported w (advancePc s), .faulted (.unsupportedInstruction w (subCause w))) ∧
    step (raiseUnsupported w (advancePc s)) = .fault (.unsupportedInstruction w (subCause w)) := by
  have hrun : runCycle s = .next (raiseUnsupported w (advancePc s)) := by
    rw [runCycle_of_fetches hx hw, exec_of_not_executable _ hrejected, encode_decodeWord]
  obtain ⟨hstep, hcall⟩ := call_raised hrun rfl
  exact ⟨hstep, hcall, (call_latched (s := raiseUnsupported w (advancePc s)) hx.1 rfl).1⟩

/-- An executable instruction is CLS or has one of five OPs (R65, R66). -/
theorem encode_of_executable {i : Instr} (h : executable i = true) :
    encode i = 0x00E0#16 ∨ field (encode i) 12 4 = 0x1#4 ∨ field (encode i) 12 4 = 0x6#4 ∨
      field (encode i) 12 4 = 0x7#4 ∨ field (encode i) 12 4 = 0xA#4 ∨ field (encode i) 12 4 = 0xD#4 := by
  cases i with
  | cls => exact .inl rfl
  | jp nnn => exact .inr (.inl (formatNNN_fields 0x1#4 nnn).1)
  | ldImm x nn => exact .inr (.inr (.inl (formatXNN_fields 0x6#4 x nn).1))
  | addImm x nn => exact .inr (.inr (.inr (.inl (formatXNN_fields 0x7#4 x nn).1)))
  | ldI nnn => exact .inr (.inr (.inr (.inr (.inl (formatNNN_fields 0xA#4 nnn).1))))
  | drw x y n => exact .inr (.inr (.inr (.inr (.inr (formatXYN_fields 0xD#4 x y n).1))))
  | sys | unsupported2 | unsupported3 | unsupported4 | unsupported5 | unsupported8 | unsupported9 | unsupportedB
  | unsupportedC | unsupportedE | unsupportedF => cases h

/-- Settles O16: a word outside the six patterns is not executable. -/
theorem unsupportedWordIsNeverSkipped : Obligations.UnsupportedWordIsNeverSkipped := by
  refine ⟨fun s w hx hw hcls h1 h6 h7 hA hD => ?_, by decide, by decide⟩
  have hrejected : executable (decodeWord w) = false := by
    by_contra hexecutable
    have hpattern := encode_of_executable (Bool.eq_true_of_not_eq_false hexecutable)
    rw [encode_decodeWord] at hpattern
    rcases hpattern with h | h | h | h | h | h
    exacts [hcls h, h1 h, h6 h, h7 h, hA h, hD h]
  exact ⟨_, _, rfl, rfl, call_unsupported hx hw hrejected⟩

/-- Settles O18: the sub-cause of a zero-nibble word is legacy, and SYS is not executable. -/
theorem sysRaisesLegacyCall : Obligations.SysRaisesLegacyCall := by
  intro nnn
  have hcause : subCause (0x0#4 ++ nnn) = .legacy := subCause_formatNNN 0x0#4 nnn
  refine ⟨decodeWord_formatNNN_sys, fun s => ?effect, fun s hcls hx hw => ?wholeCall⟩
  case effect => rw [exec_sys, raiseUnsupported_eq, formatNNN, hcause]; rfl
  case wholeCall =>
    have hdecode : decodeWord (0x0#4 ++ nnn) = .sys nnn := decodeWord_formatNNN_sys hcls
    obtain ⟨hstep, hcall, -⟩ := call_unsupported hx hw (by rw [hdecode]; rfl)
    rw [raiseUnsupported_eq, hcause] at hcall
    rw [hcause] at hstep
    exact ⟨hstep, hcall⟩

/-- Settles O24: each row is the OP and the low bits of its instruction's own word, and no row is executable or of the
zero-nibble family. -/
theorem unsupportedFamiliesRaise : Obligations.UnsupportedFamiliesRaise := by
  rintro nnn ⟨op, i⟩ hrow
  obtain ⟨hword, hwf, hrejected, hop⟩ :
      op ++ nnn = encode i ∧ i.wf = true ∧ executable i = false ∧ op ≠ 0x0#4 := by
    simp only [List.mem_cons, Prod.mk.injEq, List.not_mem_nil, or_false] at hrow
    rcases hrow with ⟨rfl, rfl⟩ | ⟨rfl, rfl⟩ | ⟨rfl, rfl⟩ | ⟨rfl, rfl⟩ | ⟨rfl, rfl⟩ | ⟨rfl, rfl⟩ | ⟨rfl, rfl⟩ |
      ⟨rfl, rfl⟩ | ⟨rfl, rfl⟩ | ⟨rfl, rfl⟩ <;> exact ⟨rfl, rfl, rfl, by decide⟩
  have hcause : subCause (op ++ nnn) = .other := (subCause_formatNNN op nnn).trans (if_neg hop)
  have hdecode : decodeWord (op ++ nnn) = i := by rw [hword, decodeWord_encode hwf]
  refine ⟨hdecode, fun s => ?effect, fun s hx hw => ?wholeCall⟩
  case effect => rw [exec_of_not_executable s hrejected, ← hword, raiseUnsupported_eq, hcause]; rfl
  case wholeCall =>
    have hcall := call_unsupported hx hw (by rw [hdecode, hrejected])
    rw [raiseUnsupported_eq, hcause] at hcall
    exact ⟨_, rfl, hcall⟩

/-! ### Faults of a jump and of a draw -/

/-- Settles O20: the jump is accepted, and the fetch from the last byte faults at the byte after it. -/
theorem jumpToTheLastByteFaultsAtTheNextFetch : Obligations.JumpToTheLastByteFaultsAtTheNextFetch := by
  intro s hx hw
  have hjump : step s = .next (writePc s (zextNNN 0xFFF#12)) := step_jp hx hw
  exact ⟨_, rfl, hjump, call_of_fetch_error (executes_of_step hjump) (fetch16_last s.mem)⟩

/-- A call that fetches a DXYN whose rows leave memory is the fault of the first such row address (R116). -/
theorem step_drw_outside {s : State} {x y : RegIdx} {n : BitVec 4} (hx : Executes s)
    (hw : Fetches s (formatXYN 0xD#4 x y n)) (hrows : ¬ RowsInMemory s.i (anchorY s y) n.toNat) :
    step s = .fault (.memoryOutOfBounds (max s.i.toNat 0x1000)) := by
  have hrun : runCycle s =
      .next (raise (.memoryOutOfBounds (max s.i.toNat 0x1000)) (leaveDrawOpen (advancePc s))) := by
    rw [runCycle_of_fetches hx hw, decodeWord_formatXYN_drw]
    exact exec_drw_outside (s := advancePc s) hrows
  exact (call_raised hrun rfl).1

/-- VF after a fault inside DXYN is a free value (D15). -/
theorem readV_raise_leaveDrawOpen_vf (f : Fault) (s : State) :
    readV (raise f (leaveDrawOpen s)) regVF = Config.freeByte s.freeCount :=
  readV_writeV_same s regVF (Config.freeByte s.freeCount)

/-- Settles O26: the state of the fault writes the free values to DISP and VF, whatever they are. -/
theorem drawOutsideMemoryRaises : Obligations.DrawOutsideMemoryRaises := by
  intro x y n
  refine ⟨fun s hrows => ⟨_, exec_drw_outside hrows, ?_⟩, fun s hx hw hrows => step_drw_outside hx hw hrows⟩
  rw [readV_raise_leaveDrawOpen_vf]
  rfl

/-- From I = 0xFFF two rows or more are read from outside memory at every anchor, also where only one is drawn (D14). -/
theorem not_rowsInMemory_last {y0 n : Nat} (hy : y0 < 32) (hn : 2 ≤ n) : ¬ RowsInMemory 0xFFF#16 y0 n := by
  simp only [RowsInMemory, BitVec.toNat_ofNat]
  omega

/-- Settles O27: `not_rowsInMemory_last` for the anchor's row, and the larger of 0xFFF and 0x1000. -/
theorem drawFromTheLastByteFaultsAtTheNextRow : Obligations.DrawFromTheLastByteFaultsAtTheNextRow := by
  intro x y n s hi hn
  have hrows : ¬ RowsInMemory s.i (anchorY s y) n.toNat :=
    hi ▸ not_rowsInMemory_last (Nat.mod_lt _ (by decide)) hn
  have haddress : max s.i.toNat 0x1000 = 0x1000 := by rw [hi]; rfl
  refine ⟨⟨_, exec_drw_outside hrows, ?_, rfl⟩, fun hx hw => ?_⟩
  · rw [raise_fault, haddress]
  · rw [step_drw_outside hx hw hrows, haddress]

/-! ### Whole-machine rules -/

/-- Settles O48: a call that leaves no fault has fetched a word, and `Effect.fault_eq_none_iff` says which words leave
none. -/
theorem cycleIsFaultFreeExactlyWhen : Obligations.CycleIsFaultFreeExactlyWhen := by
  intro s
  constructor
  · rintro ⟨t, hstep⟩
    obtain ⟨hrun, hnone⟩ := step_next_iff.mp hstep
    obtain ⟨hready, hlatch, ⟨f, -, rfl⟩ | ⟨w, hw, hexec⟩⟩ := runCycle_next_cases hrun
    · cases hnone
    · exact ⟨⟨hready, hlatch⟩, w, hw, ((effect_of_exec hexec).fault_eq_none_iff hlatch).mp hnone⟩
  · rintro ⟨hx, w, hw, hduties⟩
    obtain ⟨t, hexec, heffect⟩ := exec_total (decodeWord w) (advancePc s)
    have hnone : t.fault = none := (heffect.fault_eq_none_iff hx.2).mpr hduties
    exact ⟨t, (call_succeeds ((runCycle_of_fetches hx hw).trans hexec) hnone).1⟩

/-- Settles O50: the jump writes to PC what PC holds, so a step answers the state itself. -/
theorem selfJumpIsAFixedPoint : Obligations.SelfJumpIsAFixedPoint := by
  intro s nnn hx hw hpc k
  have hsame : writePc s (zextNNN nnn) = s := by rw [zextNNN, ← hpc]; rfl
  have hstep : step s = .next s := (step_jp hx hw).trans (congrArg _ hsame)
  induction k with
  | zero => rfl
  | succ k ih => rw [run_succ_of_next hstep, ih]

end Sys2Proof.Machine
end

section
/-! DT, ST and STACK (10_state.md R25, R26): their values pass through every operation of a call, and none reads them. -/

namespace Sys2Proof.Machine

/-- Other values in DT, ST and STACK. -/
def withInert (dt st : Word) (stack : List Word) (s : State) : State := { s with dt := dt, st := st, stack := stack }

section

variable (dt st : Word) (stack : List Word) (s : State)

/-- No instruction reads DT, ST or STACK: the draw's loops read memory, V, I and DISP, and every other instruction only
writes fields of its own. -/
theorem exec_withInert (i : Instr) :
    exec i (withInert dt st stack s) = mapNext (withInert dt st stack) (exec i s) := by
  cases i with
  | drw x y n =>
    rcases exec_drw s x y n with ⟨p, hp, hexec⟩ | ⟨f, hf, hexec⟩ <;>
      rcases exec_drw (withInert dt st stack s) x y n with ⟨q, hq, hexec'⟩ | ⟨g, hg, hexec'⟩
    · cases hp.symm.trans hq
      rw [hexec, hexec']
      rfl
    · cases hp.symm.trans hg
    · cases hf.symm.trans hq
    · cases hf.symm.trans hg
      rw [hexec, hexec']
      rfl
  | cls | sys | jp | ldImm | addImm | ldI | unsupported2 | unsupported3 | unsupported4 | unsupported5 | unsupported8
  | unsupported9 | unsupportedB | unsupportedC | unsupportedE | unsupportedF => rfl

/-- A call does the same with other values in DT, ST and STACK, in each of its situations. -/
theorem runCycle_withInert :
    runCycle (withInert dt st stack s) = mapNext (withInert dt st stack) (runCycle s) := by
  by_cases hready : s.stage = .ready
  · cases hlatch : s.fault with
    | some f =>
      rw [runCycle_of_latched hready hlatch]
      exact runCycle_of_latched (s := withInert dt st stack s) hready hlatch
    | none =>
      have hx : Executes s := ⟨hready, hlatch⟩
      have hx' : Executes (withInert dt st stack s) := hx
      cases hfetch : fetch16 s.mem s.pc.toNat with
      | error f =>
        rw [runCycle_of_fetch_error hx hfetch]
        exact runCycle_of_fetch_error hx' hfetch
      | ok w =>
        rw [runCycle_of_fetches hx hfetch, ← exec_withInert]
        exact runCycle_of_fetches hx' hfetch
  · rw [runCycle_of_not_ready hready]
    exact runCycle_of_not_ready (s := withInert dt st stack s) hready

/-- The outcome of a call looks at the latch alone. -/
theorem outcomeOf_mapNext (o : Host.Outcome State Fault Refusal) :
    outcomeOf (mapNext (withInert dt st stack) o) = mapNext (withInert dt st stack) (outcomeOf o) := by
  cases o with
  | next t =>
    cases hf : t.fault with
    | none =>
      rw [outcomeOf_next hf]
      exact outcomeOf_next (t := withInert dt st stack t) hf
    | some f =>
      rw [outcomeOf_raised hf]
      exact outcomeOf_raised (t := withInert dt st stack t) hf
  | fault f => rfl
  | refused r => rfl

/-- The state after a call and its report, with other values in DT, ST and STACK. -/
theorem executeCycle_withInert :
    executeCycle (withInert dt st stack s) = (withInert dt st stack (executeCycle s).1, (executeCycle s).2) := by
  have hrun := runCycle_withInert dt st stack s
  cases h : runCycle s with
  | next t =>
    rw [h] at hrun
    simp only [executeCycle, h, hrun, mapNext]
    rfl
  | fault f =>
    rw [h] at hrun
    simp only [executeCycle, h, hrun, mapNext]
  | refused r =>
    rw [h] at hrun
    simp only [executeCycle, h, hrun, mapNext]

end

/-- Settles O49: a step is the outcome of the call, and neither reads the three values. -/
theorem timersAndStackAreUnobservable : Obligations.TimersAndStackAreUnobservable := by
  intro s dt st stack change
  refine ⟨?_, executeCycle_withInert dt st stack s⟩
  calc step (withInert dt st stack s)
      = outcomeOf (mapNext (withInert dt st stack) (runCycle s)) := by rw [step, runCycle_withInert]
    _ = mapNext (withInert dt st stack) (step s) := outcomeOf_mapNext dt st stack (runCycle s)

end Sys2Proof.Machine
end

section
/-! Construction, loadRom and reset (70_reset_and_hazards.md R160 to R167). -/

namespace Sys2Proof.Machine

/-- Every register of a constructed core is zero (R33, R160). -/
theorem readV_constructedWith (m : Memory) (z : RegIdx) : readV (constructedWith m) z = 0x00#8 :=
  Vector.getElem_replicate z.isLt

/-- Settles O35: memory is the font and then zeros by `fontMemory_read`, and the other values are those of
`constructedWith`. -/
theorem constructionZeroesAllButTheFont : Obligations.ConstructionZeroesAllButTheFont := by
  refine fun bytes => ⟨fun hlen => ?_, construct_tooLong⟩
  have hread := fontMemory_read bytes hlen
  refine ⟨_, construct_ok hlen, fontMemory_wf bytes, fun a _ => hread a, fun a ha => ?_, readV_constructedWith _, rfl,
    pixel_displayOff, rfl, rfl, rfl⟩
  rw [← List.getD_eq_default bytes 0x00#8 ha]
  exact hread a

/-- What a `loadRom` that fits leaves: the copy in memory, and the stage (R162, R166). -/
theorem loadRom_of_le {bytes : List Byte} (s : State) (h : bytes.length ≤ 3584) :
    loadRom bytes s =
      ({ s with mem := s.mem.writeBytes 0x200 bytes, stage := stageAfterLoad s.stage }, .success) :=
  if_neg (Nat.not_lt.mpr h)

/-- What a `loadRom` that does not fit does: nothing but latch and report the overflow (R163). -/
theorem loadRom_of_lt {bytes : List Byte} (s : State) (h : 3584 < bytes.length) :
    loadRom bytes s = (latchFirst (.loadOverflow bytes.length) s, .faulted (.loadOverflow bytes.length)) :=
  if_pos h

/-- A load that fits moves Constructed to Loaded and no other stage (R166). -/
theorem stageAfterLoad_eq (stage : Stage) :
    stageAfterLoad stage = if stage = .constructed then .loaded else stage := by
  cases stage <;> rfl

/-- The ROM's byte k is at 0x200 + k after a load that fits (R162). -/
theorem read_loaded {m : Memory} {bytes : List Byte} (hm : m.wf = true) (hlen : bytes.length ≤ 3584) {k : Nat}
    (hk : k < bytes.length) : (m.writeBytes 0x200 bytes).read (0x200 + k) = bytes.getD k 0x00#8 := by
  rw [Memory.read_writeBytes_inside hm hk (by simp only [Config.memSize]; omega), List.getD_eq_getElem _ _ hk]

/-- Settles O36: inside the copy, outside it, the stage, and nothing else. -/
theorem loadRomCopiesItsBytes : Obligations.LoadRomCopiesItsBytes := fun s _ hm hlen =>
  ⟨_, loadRom_of_le s hlen, fun _ => read_loaded hm hlen, fun _ => Memory.read_writeBytes_outside hm,
    Memory.wf_writeBytes hm, stageAfterLoad_eq s.stage, rfl⟩

/-- Settles O37: the first fault stays latched. -/
theorem oversizedRomIsReported : Obligations.OversizedRomIsReported := by
  intro s bytes hlen
  rw [loadRom_of_lt s hlen, latchFirst_eq]
  refine ⟨fun hnone => by rw [hnone]; rfl, fun hlatched => ?_⟩
  obtain ⟨f, hf⟩ := Option.ne_none_iff_exists'.mp hlatched
  rw [hf, Option.getD_some, ← hf]

/-- Settles O38: both bytes of the fetch lie in the copy. -/
theorem loadedCodeIsFetchedAtOnce : Obligations.LoadedCodeIsFetchedAtOnce := by
  intro s bytes k hm hlen hk hpc
  have hfetch : fetch16 (s.mem.writeBytes 0x200 bytes) s.pc.toNat =
      .ok (bytes.getD k 0x00#8 ++ bytes.getD (k + 1) 0x00#8) := by
    rw [hpc]
    refine fetch16_ok_iff.mpr ⟨by omega, ?_⟩
    rw [Nat.add_assoc, read_loaded hm hlen (by omega), read_loaded hm hlen hk]
  rw [loadRom_of_le s hlen]
  exact ⟨rfl, hfetch⟩

/-- Settles O39: the six writes, which do not depend on what was there. -/
theorem resetWritesSixItems : Obligations.ResetWritesSixItems := fun _ => ⟨rfl, rfl, rfl⟩

/-- Below 0x200 the memory of the reset state is FONT padded with zeros (R33, R41). -/
theorem unlisted_of_lt {a : Nat} (h : a < 0x200) : Memory.unlisted a = fontPadded a := if_neg (Nat.not_le.mpr h)

/-- From 0x200 up the memory of the reset state is zero (R33). -/
theorem unlisted_of_le {a : Nat} (h : 0x200 ≤ a) : Memory.unlisted a = 0x00#8 := if_pos h

/-- The machine's own construction is accepted and lists no byte (R160). -/
theorem construct_font : construct Config.font = .next (constructedWith []) := by
  rw [construct_ok font_length, fontMemory_font]

/-- Settles O40: the reset state has the registers of a constructed core and lists no byte. -/
theorem resetStateHoldsTheTabulatedValues : Obligations.ResetStateHoldsTheTabulatedValues :=
  ⟨rfl, rfl, readV_constructedWith [], rfl, pixel_displayOff, rfl, rfl, rfl, fun _ => unlisted_of_lt,
    fun _ => unlisted_of_le⟩

/-- Settles O41: both list no byte, and reset() writes PC. -/
theorem resetStateIsConstructThenReset : Obligations.ResetStateIsConstructThenReset :=
  ⟨constructedWith [], construct_font, rfl⟩

/-- The stage after a load of any length (R166). -/
theorem loadRom_stage (bytes : List Byte) (s : State) :
    (loadRom bytes s).1.stage = if bytes.length ≤ 3584 ∧ s.stage = .constructed then .loaded else s.stage := by
  rcases loadRom_cases bytes s with ⟨hlen, e⟩ | ⟨hlen, e⟩
  · rw [e, latchFirst_eq, if_neg (fun hfits => Nat.not_le.mpr hlen hfits.1)]
  · rw [e]
    simp only [stageAfterLoad_eq, hlen, true_and]

/-- Settles O42: one lemma per host call. -/
theorem lifecycleMovesAsTabulated : Obligations.LifecycleMovesAsTabulated := fun s =>
  ⟨fun bytes => loadRom_stage bytes s, warmReset_stage s, executeCycle_stage s⟩

/-- Settles O43: loadRom writes memory and the stage, reset writes neither memory nor reads the stage, and a Ready core
stays Ready. -/
theorem loadAndResetCommute : Obligations.LoadAndResetCommute := by
  intro s bytes hlen
  rw [loadRom_of_le s hlen, loadRom_of_le (warmReset s) hlen]
  rfl

end Sys2Proof.Machine
end

section
/-! The invariant of R34 (10_state.md section 13): it holds at construction and at reset, and every call keeps it. -/

namespace Sys2Proof.Machine

namespace Inv

variable {s t : State}

/-- A state with the memory, STACK and stage of one that meets the invariant meets it if its I and PC do. -/
theorem of_frame (h : Inv s) (hmem : t.mem = s.mem) (hstack : t.stack = s.stack) (hstage : t.stage = s.stage)
    (hi : t.i.toNat ≤ 0x0FFF) (hpc : t.stage = .ready → t.pc.toNat ≤ 0x1000) : Inv t where
  memWf := by rw [hmem]; exact h.memWf
  index := hi
  pc := hpc
  stack hready := by rw [hstack]; exact h.stack (hstage ▸ hready)
  font a ha := by rw [hmem]; exact h.font a ha

/-- A raised fault touches nothing the invariant speaks of. -/
theorem after_raise (h : Inv s) (f : Fault) : Inv (raise f s) := h.of_frame rfl rfl rfl h.index h.pc

/-- I fits 12 bits after an instruction: ANNN loads 12 bits, and no other writes it (R34 a). -/
theorem index_of_effect {i : Instr} (h : Inv s) (heffect : Effect s i t) : t.i.toNat ≤ 0x0FFF := by
  by_cases hldI : ∃ nnn, i = .ldI nnn
  · obtain ⟨nnn, rfl⟩ := hldI
    cases heffect with
    | ldI =>
      rw [writeI_i, zextNNN_toNat]
      exact Nat.le_of_lt_succ nnn.isLt
    | unsupported rejected => cases rejected
  · rw [heffect.i_eq (fun nnn hi => hldI ⟨nnn, hi⟩)]
    exact h.index

/-- PC is at most 0x1000 after an instruction that was fetched: 1NNN loads 12 bits, and after any other it is 2 above an
address of at most 0xFFE (R34 b). -/
theorem pc_of_effect {i : Instr} (hfetch : s.pc.toNat ≤ 0xFFE) (heffect : Effect (advancePc s) i t) :
    t.pc.toNat ≤ 0x1000 := by
  by_cases hjp : ∃ nnn, i = .jp nnn
  · obtain ⟨nnn, rfl⟩ := hjp
    cases heffect with
    | jp =>
      rw [writePc_pc, zextNNN_toNat]
      exact Nat.le_of_lt nnn.isLt
    | unsupported rejected => cases rejected
  · rw [heffect.pc_eq (fun nnn hi => hjp ⟨nnn, hi⟩), advancePc_pc_toNat hfetch]
    omega

/-- A call that runs keeps the invariant, whether it latches a fault or not. -/
theorem after_runCycle (h : Inv s) (hrun : runCycle s = .next t) : Inv t := by
  obtain ⟨hmem, hstack, -, -, hstage⟩ := runCycle_inert hrun
  obtain ⟨-, -, ⟨f, -, rfl⟩ | ⟨w, hw, hexec⟩⟩ := runCycle_next_cases hrun
  · exact h.after_raise f
  · have heffect := effect_of_exec hexec
    obtain ⟨hfetch, -⟩ := fetch16_ok_iff.mp hw
    have hadvanced : Inv (advancePc s) :=
      h.of_frame rfl rfl rfl h.index (fun _ => by rw [advancePc_pc_toNat hfetch]; omega)
    exact h.of_frame hmem hstack hstage (hadvanced.index_of_effect heffect) (fun _ => pc_of_effect hfetch heffect)

/-- `executeCycle` keeps the invariant: a call that does not run changes nothing. -/
theorem after_executeCycle (h : Inv s) : Inv (executeCycle s).1 := by
  rcases executeCycle_state s with hrun | ⟨-, hsame⟩
  · exact h.after_runCycle hrun
  · rw [hsame]
    exact h

/-- `loadRom` keeps the invariant: it copies from 0x200 up and moves no core into or out of Ready. -/
theorem after_loadRom (h : Inv s) (bytes : List Byte) : Inv (loadRom bytes s).1 := by
  rcases loadRom_cases bytes s with ⟨-, e⟩ | ⟨-, e⟩
  · rw [e, latchFirst_eq]
    exact h.of_frame rfl rfl rfl h.index h.pc
  · have hready : stageAfterLoad s.stage = .ready → s.stage = .ready := by cases s.stage <;> decide
    rw [e]
    exact {
      memWf := Memory.wf_writeBytes h.memWf
      index := h.index
      pc := fun hr => h.pc (hready hr)
      stack := fun hr => h.stack (hready hr)
      font := fun a ha => (Memory.read_writeBytes_outside h.memWf (.inl ha)).trans (h.font a ha) }
/-- `reset()` keeps the invariant: it leaves memory alone and writes every register the invariant speaks of. -/
theorem after_warmReset (h : Inv s) : Inv (warmReset s) where
  memWf := h.memWf
  index := by rw [warmReset_i]; decide
  pc _ := by rw [warmReset_pc]; decide
  stack _ := rfl
  font := h.font

/-- Every host call keeps the invariant. -/
theorem after_transact (h : Inv s) (c : Transaction) : Inv (transact c s).1 := by
  cases c with
  | loadRom bytes => exact h.after_loadRom bytes
  | reset => exact h.after_warmReset
  | executeCycle => exact h.after_executeCycle

/-- Every sequence of host calls keeps the invariant. -/
theorem after_runTransactions (h : Inv s) (calls : List Transaction) : Inv (runTransactions calls s) := by
  induction calls generalizing s with
  | nil => exact h
  | cons c rest ih => exact ih (h.after_transact c)

end Inv

/-- The constructed core meets the invariant: it lists no byte, I is zero, and it is not Ready. -/
theorem inv_constructedWith_nil : Inv (constructedWith []) where
  memWf := Memory.wf_nil
  index := by decide
  pc := nofun
  stack := nofun
  font _ := unlisted_of_lt

/-- The core constructed with the machine's FONT meets the invariant. -/
theorem inv_of_construct {s : State} (h : construct Config.font = .next s) : Inv s := by
  cases construct_font.symm.trans h
  exact inv_constructedWith_nil

/-- Settles O44: the reset state is the reset of the constructed core. -/
theorem resetMeetsTheInvariant : Obligations.ResetMeetsTheInvariant := inv_constructedWith_nil.after_warmReset

/-- Settles O45: a step answers the state its call leaves. -/
theorem everyStepKeepsTheInvariant : Obligations.EveryStepKeepsTheInvariant := fun _ h =>
  ⟨fun _ hstep => h.after_runCycle (step_next_iff.mp hstep).1, h.after_executeCycle⟩

/-- Settles O46: construction, and `Inv.after_transact`. -/
theorem everyHostCallKeepsTheInvariant : Obligations.EveryHostCallKeepsTheInvariant :=
  ⟨fun _ => inv_of_construct, fun _ c h => h.after_transact c⟩

/-- Settles O47, by induction on the calls from construction. -/
theorem everyReachableStateMeetsTheInvariant : Obligations.EveryReachableStateMeetsTheInvariant := by
  rintro s ⟨s0, calls, hconstruct, rfl⟩
  exact (inv_of_construct hconstruct).after_runTransactions calls

end Sys2Proof.Machine
end
